-- ==== Sys2Proof/Word.lean ====
section
/-! DEFINITION. Word.lean: the word types of the ports of FPCLASS (R60, R62 of spec/30_encoding.md). -/

namespace Sys2Proof

/-- One byte, as buffers hold it (R42). -/
abbrev Byte := BitVec 8

/-- The command word CMD (R60, R61): always 16 bits. -/
abbrev CmdWord := BitVec 16

/-- One operand port, OPA, OPB or OPC (R6, R60): 64 bits. -/
abbrev Port := BitVec 64

end Sys2Proof
end

