-- ==== Sys2Proof/Config.lean ====
section
/-! DEFINITION. Config.lean: the parameters of R6 (spec/00_scope.md) and R26 (spec/10_state.md). What the spec fixes is
an inductive type here; what it leaves OPEN is a constant with no body, so that no proof can use a value of it. -/

namespace Sys2Proof

/-- The two orders a byte-order option resolves to (R43). -/
inductive ByteOrder where
  | big
  | little
  deriving DecidableEq, Repr, Inhabited

/-- `WIDTHS` of R6: the bit-width classes; "no other width exists". -/
inductive Width where
  | w16
  | w32
  | w64
  deriving DecidableEq, Repr, Inhabited

namespace Config

/-- `NATIVE_ORDER` (R6, R43, D9): OPEN, one of BIG and LITTLE. Log entry 6. -/
opaque nativeOrder : ByteOrder

/-- `NARROW16` (R6, R103, D11): OPEN, a total function of its argument alone. Log entry 7. -/
opaque narrow16 : BitVec 64 → BitVec 16

/-- `NARROW32` (R6, R103, D11): OPEN, a total function of its argument alone. Log entry 7. -/
opaque narrow32 : BitVec 64 → BitVec 32

/-- `LATENCY` (R6, R296, D15): OPEN, any number of clock cycles. No rule depends on it, so nothing of the model
reads it. Log entry 8. -/
opaque latency : Nat

end Config

end Sys2Proof
end

