-- ==== Sys2Proof/Syntax.lean ====
section
/-! DEFINITION. Syntax.lean: the commands of R65 (spec/30_encoding.md), one constructor for each row of
spec/opcode_table.json. A constructor holds the fields of the command word that R67 lists as used by its opcode, each
at every value the field can hold, the reserved codes among them; the ignored parts (R68) are not held. -/

namespace Sys2Proof

/-- The codes of FA and FB (R63): 00, 01, 10, and the reserved 11. -/
inductive FormatCode where
  | f16
  | f32
  | f64
  | reserved
  deriving DecidableEq, Repr, Inhabited

/-- The codes of ORD (R64): 000 to 100, and the reserved 101, 110 and 111. -/
inductive OrderCode where
  | native
  | nativeAligned
  | littleEndian
  | bigEndian
  | network
  | reserved101
  | reserved110
  | reserved111
  deriving DecidableEq, Repr, Inhabited

/-- A command, as its word says it (R65, R67). -/
inductive Instr where
  /-- `decode.fa a`: R110. -/
  | decode (fa : FormatCode)
  /-- `from_numeric.ord a, rw`: R112. FA is not read. -/
  | fromNumeric (ord : OrderCode)
  /-- `from_bytes.fa.ord a, n`: R111. -/
  | fromBytes (fa : FormatCode) (ord : OrderCode)
  /-- `from_fields.fa s, e, m`: R180. -/
  | fromFields (fa : FormatCode)
  /-- `to_fields.fa a`: R181. -/
  | toFields (fa : FormatCode)
  /-- `bit_at.fa a, i`: R182. -/
  | bitAt (fa : FormatCode)
  /-- `bit_set.fa a, i, v`: R183. `bv` is CMD[11]. -/
  | bitSet (fa : FormatCode) (bv : BitVec 1)
  /-- `bit_flip.fa a, i`: R184. -/
  | bitFlip (fa : FormatCode)
  /-- `total_order.fa.fb a, b`: R230. -/
  | totalOrder (fa fb : FormatCode)
  /-- `total_order_mag.fa.fb a, b`: R231. -/
  | totalOrderMag (fa fb : FormatCode)
  /-- OP 1010 and 1011, reserved (R69): `low` is OP[0]. -/
  | reservedOp1011 (low : BitVec 1)
  /-- OP 1100 to 1111, reserved (R69): `low` is OP[1:0]. -/
  | reservedOp1215 (low : BitVec 2)
  deriving DecidableEq, Repr

end Sys2Proof
end

