-- ==== Sys2Proof/WellFormed.lean ====
section
/-! DEFINITION. WellFormed.lean: the commands that use no reserved encoding (R63, R64, R69, R70 of
spec/30_encoding.md), which are the commands the assembler syntax of R76 can write. An ill-formed command is no stop: it
runs, and responds ReservedEncoding (R69, R70). Log entry 13. -/

namespace Sys2Proof

/-- A used FA or FB field does not hold 11 (R63, R70). -/
def FormatCode.defined : FormatCode → Bool
  | .f16 | .f32 | .f64 => true
  | .reserved => false

/-- A used ORD field does not hold 101, 110 or 111 (R64, R70). -/
def OrderCode.defined : OrderCode → Bool
  | .native | .nativeAligned | .littleEndian | .bigEndian | .network => true
  | .reserved101 | .reserved110 | .reserved111 => false

/-- Every format field the opcode uses holds a defined code (R67, R70). -/
def Instr.formatsDefined : Instr → Bool
  | .decode fa | .fromBytes fa _ | .fromFields fa | .toFields fa | .bitAt fa | .bitSet fa _ | .bitFlip fa => fa.defined
  | .totalOrder fa fb | .totalOrderMag fa fb => fa.defined && fb.defined
  | .fromNumeric _ | .reservedOp1011 _ | .reservedOp1215 _ => true

/-- The ORD field, where the opcode uses it, holds a defined code (R67, R70). -/
def Instr.orderDefined : Instr → Bool
  | .fromNumeric ord | .fromBytes _ ord => ord.defined
  | .decode _ | .fromFields _ | .toFields _ | .bitAt _ | .bitSet _ _ | .bitFlip _ | .totalOrder _ _
  | .totalOrderMag _ _ | .reservedOp1011 _ | .reservedOp1215 _ => true

/-- The opcode is one of 0000 to 1001 (R65, R69). -/
def Instr.opcodeDefined : Instr → Bool
  | .reservedOp1011 _ | .reservedOp1215 _ => false
  | .decode _ | .fromNumeric _ | .fromBytes _ _ | .fromFields _ | .toFields _ | .bitAt _ | .bitSet _ _ | .bitFlip _
  | .totalOrder _ _ | .totalOrderMag _ _ => true

/-- The command uses no reserved encoding. -/
def Instr.wellFormed (i : Instr) : Bool :=
  i.opcodeDefined && i.formatsDefined && i.orderDefined

end Sys2Proof
end

