-- ==== Sys2Proof/Decode.lean ====
section
/-! DEFINITION. Decode.lean: the command word, its fields and codes (R61, R63, R64, R65 of spec/30_encoding.md), the
decoder, total on the 2^16 command words, the encoder after it, and the opcode table as mask and match.

Every 16-bit word IS a command (R61, R68, R69), so on a command word nothing is refused; what is refused by name is a
bit string that is not a 16-bit word. -/

namespace Sys2Proof

/-! ### Fields of the command word (R61) -/

/-- CMD[3:0], the opcode. -/
def fieldOp (w : CmdWord) : BitVec 4 := w.extractLsb' 0 4

/-- CMD[5:4], the format code of operand A or of the result. -/
def fieldFa (w : CmdWord) : BitVec 2 := w.extractLsb' 4 2

/-- CMD[7:6], the format code of operand B. -/
def fieldFb (w : CmdWord) : BitVec 2 := w.extractLsb' 6 2

/-- CMD[10:8], the byte-order option. -/
def fieldOrd (w : CmdWord) : BitVec 3 := w.extractLsb' 8 3

/-- CMD[11], the bit value of BIT_SET. -/
def fieldBv (w : CmdWord) : BitVec 1 := w.extractLsb' 11 1

/-! ### Codes (R63, R64) -/

/-- R63: the meaning of a two-bit format field. -/
def formatCodeOf (b : BitVec 2) : FormatCode :=
  match b.toNat with
  | 0 => .f16
  | 1 => .f32
  | 2 => .f64
  | _ => .reserved

/-- R63, read the other way. -/
def formatCodeBits : FormatCode → BitVec 2
  | .f16 => 0b00#2
  | .f32 => 0b01#2
  | .f64 => 0b10#2
  | .reserved => 0b11#2

/-- R64: the meaning of a three-bit byte-order field. -/
def orderCodeOf (b : BitVec 3) : OrderCode :=
  match b.toNat with
  | 0 => .native
  | 1 => .nativeAligned
  | 2 => .littleEndian
  | 3 => .bigEndian
  | 4 => .network
  | 5 => .reserved101
  | 6 => .reserved110
  | _ => .reserved111

/-- R64, read the other way. -/
def orderCodeBits : OrderCode → BitVec 3
  | .native => 0b000#3
  | .nativeAligned => 0b001#3
  | .littleEndian => 0b010#3
  | .bigEndian => 0b011#3
  | .network => 0b100#3
  | .reserved101 => 0b101#3
  | .reserved110 => 0b110#3
  | .reserved111 => 0b111#3

/-! ### The decoder (R65, R67, R69) -/

/-- The command a word stands for: the opcode map of R65, with the fields R67 lists for each opcode. -/
def decode (w : CmdWord) : Instr :=
  let fa := formatCodeOf (fieldFa w)
  let fb := formatCodeOf (fieldFb w)
  let ord := orderCodeOf (fieldOrd w)
  match (fieldOp w).toNat with
  | 0b0000 => .decode fa
  | 0b0001 => .fromNumeric ord
  | 0b0010 => .fromBytes fa ord
  | 0b0011 => .fromFields fa
  | 0b0100 => .toFields fa
  | 0b0101 => .bitAt fa
  | 0b0110 => .bitSet fa (fieldBv w)
  | 0b0111 => .bitFlip fa
  | 0b1000 => .totalOrder fa fb
  | 0b1001 => .totalOrderMag fa fb
  | 0b1010 => .reservedOp1011 0#1
  | 0b1011 => .reservedOp1011 1#1
  | _ => .reservedOp1215 (w.extractLsb' 0 2)

/-- Why a bit string is not a command word. -/
inductive DecodeReject where
  /-- The string is longer than 16 bits: "There are no other lengths" (R61). Safe: such a string is no input of the block. -/
  | longerThanCommand
  /-- The number has a bit above the length given with it. Safe: it is not a bit string of that length. -/
  | bitsAboveLength
  deriving DecidableEq, Repr

/-- The command in a string of `nbits` bits whose value is `w`, the bits above `nbits` being 0 (R61). Log
entry 14. -/
def decodeBits (nbits w : Nat) : Except DecodeReject Instr :=
  if 16 < nbits then .error .longerThanCommand
  else if 2 ^ nbits ≤ w then .error .bitsAboveLength
  else .ok (decode (BitVec.ofNat 16 w))

/-- The host's view of `decodeBits`. -/
def decodeTableWord (nbits w : Nat) : Option Instr :=
  (decodeBits nbits w).toOption

/-! ### The encoder -/

/-- The opcode of a command (R65, R69). -/
def Instr.opcode : Instr → BitVec 4
  | .decode _ => 0b0000#4
  | .fromNumeric _ => 0b0001#4
  | .fromBytes _ _ => 0b0010#4
  | .fromFields _ => 0b0011#4
  | .toFields _ => 0b0100#4
  | .bitAt _ => 0b0101#4
  | .bitSet _ _ => 0b0110#4
  | .bitFlip _ => 0b0111#4
  | .totalOrder _ _ => 0b1000#4
  | .totalOrderMag _ _ => 0b1001#4
  | .reservedOp1011 low => 0b101#3 ++ low
  | .reservedOp1215 low => 0b11#2 ++ low

/-- The word with the given fields, CMD[15:12] being 0 (R61: "software writes 0"). -/
def commandWord (bv : BitVec 1) (ord : BitVec 3) (fb fa : BitVec 2) (op : BitVec 4) : CmdWord :=
  0#4 ++ bv ++ ord ++ fb ++ fa ++ op

/-- The word of a command, "with unused fields 0" (R76). -/
def encode (i : Instr) : CmdWord :=
  match i with
  | .decode fa | .fromFields fa | .toFields fa | .bitAt fa | .bitFlip fa =>
    commandWord 0 0 0 (formatCodeBits fa) i.opcode
  | .fromNumeric ord => commandWord 0 (orderCodeBits ord) 0 0 i.opcode
  | .fromBytes fa ord => commandWord 0 (orderCodeBits ord) 0 (formatCodeBits fa) i.opcode
  | .bitSet fa bv => commandWord bv 0 0 (formatCodeBits fa) i.opcode
  | .totalOrder fa fb | .totalOrderMag fa fb => commandWord 0 0 (formatCodeBits fb) (formatCodeBits fa) i.opcode
  | .reservedOp1011 _ | .reservedOp1215 _ => commandWord 0 0 0 0 i.opcode

/-! ### The opcode table (spec/opcode_table.json) -/

/-- The row of the opcode table a command belongs to. -/
def Instr.mnemonic : Instr → String
  | .decode _ => "decode"
  | .fromNumeric _ => "from_numeric"
  | .fromBytes _ _ => "from_bytes"
  | .fromFields _ => "from_fields"
  | .toFields _ => "to_fields"
  | .bitAt _ => "bit_at"
  | .bitSet _ _ => "bit_set"
  | .bitFlip _ => "bit_flip"
  | .totalOrder _ _ => "total_order"
  | .totalOrderMag _ _ => "total_order_mag"
  | .reservedOp1011 _ => "reserved_op_10_11"
  | .reservedOp1215 _ => "reserved_op_12_15"

/-- One row of the opcode table: its words are those that agree with `pattern` on the bits of `mask`. -/
structure OpcodeRow where
  mnemonic : String
  pattern : CmdWord
  mask : CmdWord
  deriving DecidableEq, Repr

/-- The word is one of the row's. -/
def OpcodeRow.covers (r : OpcodeRow) (w : CmdWord) : Bool := w &&& r.mask == r.pattern

/-- The rows of spec/opcode_table.json, in its order. -/
def opcodeTable : List OpcodeRow :=
  [ ⟨"decode", 0x0000#16, 0x000F#16⟩,
    ⟨"from_numeric", 0x0001#16, 0x000F#16⟩,
    ⟨"from_bytes", 0x0002#16, 0x000F#16⟩,
    ⟨"from_fields", 0x0003#16, 0x000F#16⟩,
    ⟨"to_fields", 0x0004#16, 0x000F#16⟩,
    ⟨"bit_at", 0x0005#16, 0x000F#16⟩,
    ⟨"bit_set", 0x0006#16, 0x000F#16⟩,
    ⟨"bit_flip", 0x0007#16, 0x000F#16⟩,
    ⟨"total_order", 0x0008#16, 0x000F#16⟩,
    ⟨"total_order_mag", 0x0009#16, 0x000F#16⟩,
    ⟨"reserved_op_10_11", 0x000A#16, 0x000E#16⟩,
    ⟨"reserved_op_12_15", 0x000C#16, 0x000C#16⟩ ]

end Sys2Proof
end

