-- ==== Sys2Proof/Machine/State.lean ====
section
/-! DEFINITION. Machine/State.lean: the state of the model. FPCLASS itself "holds no architectural state between
commands" (R20 of spec/10_state.md); what State holds is the two ends of its interface, the command samples the host has
presented (R60) and the responses that have left the block (R62). Log entries 1, 2, 3 and 10. -/

namespace Sys2Proof.Machine

/-- One command: "one sample of these inputs, taken together" (R60). -/
structure Command where
  /-- CMD, the command word. -/
  cmd : CmdWord
  /-- OPA. -/
  opa : Port
  /-- OPB. -/
  opb : Port
  /-- OPC. -/
  opc : Port
  /-- AUX. -/
  aux : BitVec 8
  deriving DecidableEq, Repr, Inhabited

/-- The outputs of one response (R62). -/
structure Response where
  /-- RESP.ERR, the error code of R260. -/
  err : BitVec 4
  /-- RESP.EINFO, the error detail. -/
  einfo : BitVec 2
  /-- RESP.FMT. -/
  fmt : BitVec 2
  /-- RESP.BITS. -/
  bits : BitVec 64
  /-- RESP.SIGN. -/
  sign : BitVec 1
  /-- RESP.EXP. -/
  exp : BitVec 11
  /-- RESP.MANT. -/
  mant : BitVec 52
  /-- RESP.CLASS, the category flags of R73. -/
  cls : BitVec 10
  /-- RESP.BIAS. -/
  bias : BitVec 10
  /-- RESP.UEXP. -/
  uexp : BitVec 12
  /-- RESP.MKIND. -/
  mkind : BitVec 2
  /-- RESP.MNUM. -/
  mnum : BitVec 53
  /-- RESP.MSCALE. -/
  mscale : BitVec 6
  /-- RESP.BOOL. -/
  bool : BitVec 1
  deriving DecidableEq, Repr, Inhabited

/-- The state of the model: plain data at the interface of a block that has none of its own (R20). -/
structure State where
  /-- The sample on the input ports for the command being answered (R49, R60). -/
  current : Command
  /-- The samples the host has presented and the block has not answered, oldest first (R50, R295, R297). -/
  pending : List Command
  /-- The responses that have left the block, oldest first (R50, R297). -/
  responses : List Response
  deriving DecidableEq, Repr, Inhabited

/-- Why the machine could stop with a fault. There is no such reason: "An error is never fatal to the block" (R263), "There is no
input on which the block hangs" (R296), and an error is a value of RESP.ERR (R262). So the type has no constructor. Log entry 11. -/
inductive Fault where
  deriving DecidableEq, Repr

/-- Why the model could refuse a command. -/
inductive Refusal where
  /-- Raised by an arm of `exec` whose instruction has no meaning yet. Safe: the run ends where the hardware goes on.
  Every arm has its meaning, so nothing raises it. -/
  | notModelled (mnemonic : String)
  deriving DecidableEq, Repr

/-- The machine right after reset (R27, R290): no command has been presented, no response has left. The spec gives the
input ports no reset value; the model takes 0 for each (log entry 2, DESIGN CHOICE), and no response depends on it. -/
def State.reset : State where
  current := { cmd := 0, opa := 0, opb := 0, opc := 0, aux := 0 }
  pending := []
  responses := []

end Sys2Proof.Machine
end

