-- ==== Sys2Proof/Machine/Ops.lean ====
section
/-! DEFINITION. Machine/Ops.lean: the operations every command shares: taking a command off the command port, raising an
error (R260, R262 of spec/60_exceptions.md; the whole of what an exception is on this block, R266), delivering the one
response of a command (R50, R60), and reset being asserted (R292). -/

namespace Sys2Proof.Machine

/-- Every output 0: an output the opcode does not drive is 0 (R62). -/
def Response.zero : Response where
  err := 0
  einfo := 0
  fmt := 0
  bits := 0
  sign := 0
  exp := 0
  mant := 0
  cls := 0
  bias := 0
  uexp := 0
  mkind := 0
  mnum := 0
  mscale := 0
  bool := 0

/-- Which field of a tuple overflowed (R62, R260). -/
inductive OverflowField where
  | exponent
  | mantissa
  deriving DecidableEq, Repr

/-- The errors of R260. -/
inductive CmdError where
  /-- Code 1, "never by FPCLASS"; kept because R260 names it. -/
  | parseError
  /-- Code 2: FROM_BYTES. -/
  | lengthMismatch
  /-- Code 3: FROM_FIELDS. -/
  | overflow (field : OverflowField)
  /-- Code 4: FROM_FIELDS. -/
  | valueError
  /-- Code 5: TOTAL_ORDER, TOTAL_ORDER_MAG. -/
  | typeMismatch
  /-- Code 6: BIT_AT, BIT_SET, BIT_FLIP. -/
  | indexError
  /-- Code 7: any command. -/
  | reservedEncoding
  deriving DecidableEq, Repr

/-- The code of an error in RESP.ERR (R260). -/
def CmdError.code : CmdError → BitVec 4
  | .parseError => 1
  | .lengthMismatch => 2
  | .overflow _ => 3
  | .valueError => 4
  | .typeMismatch => 5
  | .indexError => 6
  | .reservedEncoding => 7

/-- The detail of an error in RESP.EINFO (R260): 1 for a mantissa field that overflowed, else 0. -/
def CmdError.detail : CmdError → BitVec 2
  | .overflow .mantissa => 1
  | .overflow .exponent | .parseError | .lengthMismatch | .valueError | .typeMismatch | .indexError
  | .reservedEncoding => 0

/-- The response of a failed command: "RESP.ERR = the code and RESP.EINFO = the detail. Every other output is 0" (R262). -/
def raiseError (e : CmdError) : Response :=
  { Response.zero with err := e.code, einfo := e.detail }

/-- One check of a command, `if bad: raise e` (R9): where it applies no later line runs (R264). -/
def raiseIf (bad : Bool) (e : CmdError) : Except CmdError Unit :=
  if bad then .error e else .ok ()

/-- A response leaves the block after those before it (R50, R297); nothing else changes (R20). -/
def State.deliver (s : State) (r : Response) : State :=
  { s with responses := s.responses ++ [r] }

/-- The block samples all inputs of the command `c`, and `rest` is still to be answered (R49, R295). -/
def State.accept (s : State) (c : Command) (rest : List Command) : State :=
  { s with current := c, pending := rest }

/-- Reset is asserted: what is in flight "has no defined response" and gets none (R292, D22). Three points are the model's choice.
Every pending command counts as in flight and is dropped, and responses that have left the block stay (log entry 9, DESIGN CHOICE);
`current` keeps the sample it holds, since the host drives the ports and the spec says nothing of them at a reset (log entry 20,
DESIGN CHOICE). -/
def State.assertReset (s : State) : State :=
  { s with pending := [] }

end Sys2Proof.Machine
end

