-- ==== Sys2Proof/Machine/Operands.lean ====
section
/-! DEFINITION. Machine/Operands.lean: the format table and the byte-order table (R22 of spec/10_state.md), the FloatValue
(R23), its fields and bits (R7, R100), the assembly of operands from fields and ports (R42, R66), and the datapath
functions of the BitDecoder: byte order (R43, R44, R101), width snapping (R102), packing (R103). -/

namespace Sys2Proof

/-! ### The format table (R22) -/

/-- W. -/
@[reducible] def Width.bits : Width → Nat
  | .w16 => 16
  | .w32 => 32
  | .w64 => 64

/-- e, the length of the exponent field. -/
@[reducible] def Width.expLen : Width → Nat
  | .w16 => 5
  | .w32 => 8
  | .w64 => 11

/-- m, the length of the mantissa field. -/
@[reducible] def Width.mantLen : Width → Nat
  | .w16 => 10
  | .w32 => 23
  | .w64 => 52

/-- `bias = 2^(e-1) - 1` (R150). -/
def Width.bias (w : Width) : Nat := 2 ^ (w.expLen - 1) - 1

/-- The format code of a width in RESP.FMT (R63). -/
def Width.code : Width → BitVec 2
  | .w16 => 0b00#2
  | .w32 => 0b01#2
  | .w64 => 0b10#2

end Sys2Proof

namespace Sys2Proof.Machine

/-- The width a used format field names, or the error it raises (R63, R70). -/
def usedFormat : FormatCode → Except CmdError Width
  | .f16 => .ok .w16
  | .f32 => .ok .w32
  | .f64 => .ok .w64
  | .reserved => .error .reservedEncoding

/-- The byte-order table: the order a used ORD field resolves to, or the error it raises (R43, R64, R70). -/
def usedOrder : OrderCode → Except CmdError ByteOrder
  | .native | .nativeAligned => .ok Config.nativeOrder
  | .littleEndian => .ok .little
  | .bigEndian | .network => .ok .big
  | .reserved101 | .reserved110 | .reserved111 => .error .reservedEncoding

/-! ### The FloatValue (R23, R25) and its fields (R100) -/

/-- A FloatValue: a width and a pattern of that many bits (R23). Two are equal iff both are (R25). -/
structure FloatValue where
  width : Width
  pattern : BitVec width.bits
  deriving DecidableEq, Repr

/-- rawSign: `P[W-1]` (R100). -/
def FloatValue.rawSign (x : FloatValue) : BitVec 1 :=
  x.pattern.extractLsb' (x.width.bits - 1) 1

/-- rawExponent: `P[W-2:m]` (R100). -/
def FloatValue.rawExponent (x : FloatValue) : BitVec x.width.expLen :=
  x.pattern.extractLsb' x.width.mantLen x.width.expLen

/-- rawMantissa: `P[m-1:0]` (R100). -/
def FloatValue.rawMantissa (x : FloatValue) : BitVec x.width.mantLen :=
  x.pattern.extractLsb' 0 x.width.mantLen

/-- `storedExponent`, E (R100). -/
def FloatValue.storedExponent (x : FloatValue) : Nat := x.rawExponent.toNat

/-- `storedMantissa`, F (R100). -/
def FloatValue.storedMantissa (x : FloatValue) : Nat := x.rawMantissa.toNat

/-- `P[W-2:0]` as an unsigned integer: the magnitude bits the total order compares (R224). -/
def FloatValue.magnitude (x : FloatValue) : Nat :=
  (x.pattern.extractLsb' 0 (x.width.bits - 1)).toNat

/-- The pattern with the given fields, `s ‖ E ‖ F` (R180). -/
def joinFields (w : Width) (s : BitVec 1) (e : BitVec w.expLen) (f : BitVec w.mantLen) : BitVec w.bits :=
  (s ++ e ++ f).setWidth w.bits

/-! ### Bits by sequence index (R7) -/

/-- `P⟨i⟩ = P[W-1-i]` (R7), for `i < W`. -/
def FloatValue.seqBit (x : FloatValue) (i : Nat) : BitVec 1 :=
  x.pattern.extractLsb' (x.width.bits - 1 - i) 1

/-- The pattern P with `P'[W-1-i] = v`, "all other bits unchanged" (R183), for `i < W`. -/
def setSeqBit (w : Width) (p : BitVec w.bits) (i : Nat) (v : BitVec 1) : BitVec w.bits :=
  (p &&& ~~~(BitVec.twoPow w.bits (w.bits - 1 - i))) ||| (v.setWidth w.bits <<< (w.bits - 1 - i))

/-- The pattern P with `P'[W-1-i] = !P[W-1-i]` (R184), for `i < W`. -/
def flipSeqBit (w : Width) (p : BitVec w.bits) (i : Nat) : BitVec w.bits :=
  p ^^^ BitVec.twoPow w.bits (w.bits - 1 - i)

/-! ### Operands from ports (R42, R66) -/

/-- The pattern operand on a port: its low W bits, the bits above ignored (R66). -/
def patternOperand (w : Width) (p : Port) : FloatValue :=
  ⟨w, p.setWidth w.bits⟩

/-- Buffer bytes 0 to `n-1`: byte j is `OPA[8j+7:8j]` (R42). -/
def byteLanes (n : Nat) (p : Port) : List Byte :=
  (List.range n).map fun j => p.extractLsb' (8 * j) 8

/-! ### Byte order (R44, R101) -/

/-- The bytes of a pattern, byte 0 the most significant: byte q is `P[W-1-8q : W-8-8q]` (R44). -/
def patternBytes (w : Width) (p : BitVec w.bits) : List Byte :=
  (List.range (w.bits / 8)).map fun q => p.extractLsb' (w.bits - 8 - 8 * q) 8

/-- Concatenation of bytes, the first the most significant. -/
def joinBytes (w : Width) (bs : List Byte) : BitVec w.bits :=
  bs.foldl (fun acc b => acc <<< 8 ||| b.setWidth w.bits) 0

/-- The pattern a buffer of W/8 bytes holds under a byte order (R44, R111). -/
def patternOfBuffer (w : Width) (o : ByteOrder) (buf : List Byte) : BitVec w.bits :=
  match o with
  | .big => joinBytes w buf
  | .little => joinBytes w buf.reverse

/-- `permute(Q, order)`: whole bytes are permuted, never the bits within one (R45, R101). -/
def permute (w : Width) (q : BitVec w.bits) (o : ByteOrder) : BitVec w.bits :=
  match o with
  | .big => q
  | .little => joinBytes w (patternBytes w q).reverse

/-! ### Width snapping and packing (R102, R103) -/

/-- `snap(rw)` (R102). -/
def snap (rw : Nat) : Width :=
  if rw < 32 then .w16 else if rw < 63 then .w32 else .w64

/-- `pack(v, W)` (R103): the identity at width 64, the open parameters below it. -/
def pack (v : BitVec 64) (w : Width) : BitVec w.bits :=
  match w with
  | .w64 => v
  | .w32 => Config.narrow32 v
  | .w16 => Config.narrow16 v

end Sys2Proof.Machine
end

