-- ==== Sys2Proof/Machine/Flags.lean ====
section
/-! DEFINITION. Machine/Flags.lean: the FieldClassifier (spec/41_classifier.md, R140 to R154): the category flags, the sign,
the unbiased exponent, the mantissa value, the canonical flag and the numeric value of a FloatValue, and how a response
encodes them (R73 to R75 of spec/30_encoding.md). -/

namespace Sys2Proof.Machine

/-! ### Field predicates (R140) -/

/-- `!any(exponent)`. -/
def FloatValue.allExponentBitsZero (x : FloatValue) : Bool := x.rawExponent == 0

/-- `all(exponent)`. -/
def FloatValue.allExponentBitsOne (x : FloatValue) : Bool := x.rawExponent == BitVec.allOnes x.width.expLen

/-- `!any(mantissa)`. -/
def FloatValue.mantissaAllZero (x : FloatValue) : Bool := x.rawMantissa == 0

/-! ### Categories (R141 to R149, R153) -/

/-- R141. -/
def FloatValue.isZero (x : FloatValue) : Bool := x.allExponentBitsZero && x.mantissaAllZero

/-- R142. -/
def FloatValue.isSubnormal (x : FloatValue) : Bool := x.allExponentBitsZero && !x.mantissaAllZero

/-- R143. -/
def FloatValue.isInfinite (x : FloatValue) : Bool := x.allExponentBitsOne && x.mantissaAllZero

/-- R144. -/
def FloatValue.isNaN (x : FloatValue) : Bool := x.allExponentBitsOne && !x.mantissaAllZero

/-- `mantissa⟨0⟩ = P[m-1]`, the most significant mantissa bit (R145). -/
def FloatValue.quietBit (x : FloatValue) : Bool := x.rawMantissa.getLsbD (x.width.mantLen - 1)

/-- R145. -/
def FloatValue.isSignalingNaN (x : FloatValue) : Bool := x.isNaN && !x.quietBit

/-- R145. -/
def FloatValue.isQuietNaN (x : FloatValue) : Bool := x.isNaN && x.quietBit

/-- R146, the primary definition (C2 of spec/90_conflicts.md). -/
def FloatValue.isNormal (x : FloatValue) : Bool := !x.isZero && !x.isSubnormal && !x.isInfinite && !x.isNaN

/-- R147. -/
def FloatValue.isFinite (x : FloatValue) : Bool := x.isZero || x.isNormal || x.isSubnormal

/-- The symbolic sign (R10, R149). -/
inductive Sign where
  | plus
  | minus
  deriving DecidableEq, Repr

/-- R149: "Minus iff rawSign = 1". -/
def FloatValue.sign (x : FloatValue) : Sign := if x.rawSign = 1 then .minus else .plus

/-- R153, exactly the source's formula; `mantissa⟨1..m-1⟩` is `P[m-2:0]`. -/
def FloatValue.isCanonical (x : FloatValue) : Bool :=
  !x.isNaN || x.isSignalingNaN || x.rawMantissa.extractLsb' 0 (x.width.mantLen - 1) == 0

/-- RESP.CLASS (R73), bit 0 first. -/
def FloatValue.classFlags (x : FloatValue) : BitVec 10 :=
  BitVec.ofBoolListLE
    [ x.isZero, x.isSubnormal, x.isNormal, x.isInfinite, x.isNaN, x.isSignalingNaN, x.isQuietNaN, x.isFinite,
      x.isCanonical, x.sign == .minus ]

/-! ### Exponent (R151) -/

/-- The unbiased exponent, step 11 as written, "+ 1" included (R151, C1 of spec/90_conflicts.md). -/
def FloatValue.unbiasedExponent (x : FloatValue) : Int :=
  if x.isZero || x.isInfinite || x.isNaN then 0
  else (x.storedExponent : Int) - x.width.bias + 1

/-- RESP.UEXP: `unbiasedExponent mod 2^12` (R74). -/
def FloatValue.unbiasedExponentCode (x : FloatValue) : BitVec 12 := BitVec.ofInt 12 x.unbiasedExponent

/-! ### Mantissa value (R152, R75) -/

/-- The mantissa rational value M: the exact rational `num / 2^scale`, or a sentinel (R152). -/
inductive MantissaValue where
  | finite (num scale : Nat)
  | plusInf
  | nan
  deriving DecidableEq, Repr

/-- M by category, as the table of R152 gives it. -/
def FloatValue.mantissaValue (x : FloatValue) : MantissaValue :=
  if x.isNormal then .finite (2 ^ x.width.mantLen + x.storedMantissa) (x.width.mantLen + 1)
  else if x.isSubnormal then .finite x.storedMantissa x.width.mantLen
  else if x.isZero then .finite 0 x.width.mantLen
  else if x.isInfinite then .plusInf
  else .nan

/-- RESP.MKIND (R75). -/
def MantissaValue.kind : MantissaValue → BitVec 2
  | .finite _ _ => 0
  | .plusInf => 1
  | .nan => 2

/-- RESP.MNUM (R75). -/
def MantissaValue.numOut : MantissaValue → BitVec 53
  | .finite num _ => BitVec.ofNat 53 num
  | .plusInf | .nan => 0

/-- RESP.MSCALE (R75). -/
def MantissaValue.scaleOut : MantissaValue → BitVec 6
  | .finite _ scale => BitVec.ofNat 6 scale
  | .plusInf | .nan => 0

/-! ### Numeric value (R154) -/

/-- The exact rational `num · 2^exp`. -/
structure Scaled where
  num : Int
  exp : Int
  deriving DecidableEq, Repr

/-- The numerator of `a` over the scale `2^k`, for `k ≤ a.exp`. -/
def Scaled.numAt (a : Scaled) (k : Int) : Int := a.num * 2 ^ (a.exp - k).toNat

/-- `a < b` as rationals: both are brought to the smaller scale. -/
def Scaled.lt (a b : Scaled) : Bool :=
  let k := min a.exp b.exp
  decide (a.numAt k < b.numAt k)

/-- "an element of the extended rationals with two signed zeros, or NaN" (R154). -/
inductive NumericValue where
  | zero (sign : Sign)
  | finite (value : Scaled)
  | infinity (sign : Sign)
  | nan
  deriving DecidableEq, Repr

/-- `(-1)^rawSign · M · 2^unbiasedExponent` with `M = num / 2^scale` (R154). -/
def signedScaled (s : Sign) (num scale : Nat) (uexp : Int) : Scaled :=
  match s with
  | .plus => ⟨num, uexp - scale⟩
  | .minus => ⟨-num, uexp - scale⟩

/-- numericValue (R154). Log entry 15. -/
def FloatValue.numericValue (x : FloatValue) : NumericValue :=
  if x.isZero then .zero x.sign
  else
    match x.mantissaValue with
    | .finite num scale => .finite (signedScaled x.sign num scale x.unbiasedExponent)
    | .plusInf => .infinity x.sign
    | .nan => .nan

/-- The number a finite numericValue is, both zeros counting as 0 (R154, R223). What it gives for an infinity or a NaN is
read by no rule: R222 and R223 compare finite operands only. -/
def FloatValue.asNumber (x : FloatValue) : Scaled :=
  match x.numericValue with
  | .finite v => v
  | .zero _ | .infinity _ | .nan => ⟨0, 0⟩

end Sys2Proof.Machine
end

