-- ==== Sys2Proof/Machine/Record.lean ====
section
/-! DEFINITION. Machine/Record.lean: the three output groups of a successful command (R71 of spec/30_encoding.md), and how
a command completes: with one response, a result or an error (R60, R262). -/

namespace Sys2Proof.Machine

/-- `RecordOut(W, P)` (R71, R72). -/
def recordOut (x : FloatValue) : Response :=
  { Response.zero with
    fmt := x.width.code
    bits := x.pattern.setWidth 64
    sign := x.rawSign
    exp := x.rawExponent.setWidth 11
    mant := x.rawMantissa.setWidth 52
    cls := x.classFlags
    bias := BitVec.ofNat 10 x.width.bias
    uexp := x.unbiasedExponentCode
    mkind := x.mantissaValue.kind
    mnum := x.mantissaValue.numOut
    mscale := x.mantissaValue.scaleOut }

/-- `TupleOut(W, P)`: RESP.FMT, RESP.SIGN, RESP.EXP and RESP.MANT only (R71, R181). -/
def tupleOut (x : FloatValue) : Response :=
  { Response.zero with
    fmt := x.width.code
    sign := x.rawSign
    exp := x.rawExponent.setWidth 11
    mant := x.rawMantissa.setWidth 52 }

/-- `BoolOut(b)`: RESP.BOOL only (R71). -/
def boolOut (b : BitVec 1) : Response :=
  { Response.zero with bool := b }

/-- The response of a command whose outcome is an error or a driven response (R62, R262). -/
def responseOf : Except CmdError Response → Response
  | .ok r => r
  | .error e => raiseError e

/-- A command completes: it gives exactly one response, and nothing else changes (R20, R49, R60, R263). -/
def complete (outcome : Except CmdError Response) (s : State) : Host.Outcome State Fault Refusal :=
  .next (s.deliver (responseOf outcome))

end Sys2Proof.Machine
end

