-- ==== Sys2Proof/Machine/BitDecoder.lean ====
section
/-! DEFINITION. Machine/BitDecoder.lean: DECODE, FROM_NUMERIC and FROM_BYTES (spec/40_bitdecoder.md, R110 to R112). Each
outcome is a function of the command sample alone (R20), its checks in the order of the rule's pseudocode (R264). -/

namespace Sys2Proof.Machine

/-- DECODE (R110). -/
def outcomeDecode (fa : FormatCode) (c : Command) : Except CmdError Response := do
  let w ← usedFormat fa
  return recordOut (patternOperand w c.opa)

/-- DECODE. -/
def execDecode (fa : FormatCode) (s : State) : Host.Outcome State Fault Refusal :=
  complete (outcomeDecode fa s.current) s

/-- FROM_NUMERIC (R112): snap the requested width, pack the binary64 value, permute its bytes; the permuted pattern is
the one classified (D20). -/
def outcomeFromNumeric (ord : OrderCode) (c : Command) : Except CmdError Response := do
  let o ← usedOrder ord
  let w := snap c.aux.toNat
  return recordOut ⟨w, permute w (pack c.opa w) o⟩

/-- FROM_NUMERIC. -/
def execFromNumeric (ord : OrderCode) (s : State) : Host.Outcome State Fault Refusal :=
  complete (outcomeFromNumeric ord s.current) s

/-- FROM_BYTES (R111): the buffer length is AUX, its bytes are the lanes of OPA (R42). -/
def outcomeFromBytes (fa : FormatCode) (ord : OrderCode) (c : Command) : Except CmdError Response := do
  let w ← usedFormat fa
  let o ← usedOrder ord
  raiseIf (c.aux.toNat * 8 ≠ w.bits) .lengthMismatch
  return recordOut ⟨w, patternOfBuffer w o (byteLanes (w.bits / 8) c.opa)⟩

/-- FROM_BYTES. -/
def execFromBytes (fa : FormatCode) (ord : OrderCode) (s : State) : Host.Outcome State Fault Refusal :=
  complete (outcomeFromBytes fa ord s.current) s

end Sys2Proof.Machine
end

