-- ==== Sys2Proof/Machine/FloatOps.lean ====
section
/-! DEFINITION. Machine/FloatOps.lean: FROM_FIELDS, TO_FIELDS, BIT_AT, BIT_SET and BIT_FLIP (spec/42_floatvalue.md, R180 to
R184), and abs (R221). Each outcome is a function of the command sample alone (R20), its checks in the order of the
rule's pseudocode (R264). -/

namespace Sys2Proof.Machine

/-- `bitLength(n)`: the least k with `n < 2^k` (R8). -/
def bitLength (n : Nat) : Nat := if n = 0 then 0 else Nat.log2 n + 1

/-- FROM_FIELDS (R180): sign, exponent and mantissa are unsigned 64-bit integers, checked in this order. -/
def outcomeFromFields (fa : FormatCode) (c : Command) : Except CmdError Response := do
  let w ← usedFormat fa
  raiseIf (c.opa.toNat > 1) .valueError
  raiseIf (bitLength c.opb.toNat > w.expLen) (.overflow .exponent)
  raiseIf (bitLength c.opc.toNat > w.mantLen) (.overflow .mantissa)
  return recordOut ⟨w, joinFields w (c.opa.setWidth 1) (c.opb.setWidth w.expLen) (c.opc.setWidth w.mantLen)⟩

/-- FROM_FIELDS. -/
def execFromFields (fa : FormatCode) (s : State) : Host.Outcome State Fault Refusal :=
  complete (outcomeFromFields fa s.current) s

/-- TO_FIELDS (R181). -/
def outcomeToFields (fa : FormatCode) (c : Command) : Except CmdError Response := do
  let w ← usedFormat fa
  return tupleOut (patternOperand w c.opa)

/-- TO_FIELDS. -/
def execToFields (fa : FormatCode) (s : State) : Host.Outcome State Fault Refusal :=
  complete (outcomeToFields fa s.current) s

/-- The bit index of BIT_AT, BIT_SET and BIT_FLIP: AUX, unsigned, which must be below W (R182 to R184). -/
def usedIndex (w : Width) (c : Command) : Except CmdError Nat :=
  if c.aux.toNat ≥ w.bits then .error .indexError else .ok c.aux.toNat

/-- BIT_AT (R182). -/
def outcomeBitAt (fa : FormatCode) (c : Command) : Except CmdError Response := do
  let w ← usedFormat fa
  let i ← usedIndex w c
  return boolOut ((patternOperand w c.opa).seqBit i)

/-- BIT_AT. -/
def execBitAt (fa : FormatCode) (s : State) : Host.Outcome State Fault Refusal :=
  complete (outcomeBitAt fa s.current) s

/-- `withBitSet(i, v)`, "no-op (returns self)" where the bit holds v already (R183). -/
def FloatValue.withBitSet (x : FloatValue) (i : Nat) (v : BitVec 1) : FloatValue :=
  if x.seqBit i = v then x else ⟨x.width, setSeqBit x.width x.pattern i v⟩

/-- BIT_SET (R183). -/
def outcomeBitSet (fa : FormatCode) (bv : BitVec 1) (c : Command) : Except CmdError Response := do
  let w ← usedFormat fa
  let i ← usedIndex w c
  return recordOut ((patternOperand w c.opa).withBitSet i bv)

/-- BIT_SET. -/
def execBitSet (fa : FormatCode) (bv : BitVec 1) (s : State) : Host.Outcome State Fault Refusal :=
  complete (outcomeBitSet fa bv s.current) s

/-- `withBitFlipped(i)` (R184). -/
def FloatValue.withBitFlipped (x : FloatValue) (i : Nat) : FloatValue :=
  ⟨x.width, flipSeqBit x.width x.pattern i⟩

/-- BIT_FLIP (R184). -/
def outcomeBitFlip (fa : FormatCode) (c : Command) : Except CmdError Response := do
  let w ← usedFormat fa
  let i ← usedIndex w c
  return recordOut ((patternOperand w c.opa).withBitFlipped i)

/-- BIT_FLIP. -/
def execBitFlip (fa : FormatCode) (s : State) : Host.Outcome State Fault Refusal :=
  complete (outcomeBitFlip fa s.current) s

/-- `abs(x)`: "Px with P[W-1] = 0", for every category (R221). Sequence index 0 is the sign bit (R7). -/
def FloatValue.abs (x : FloatValue) : FloatValue := ⟨x.width, setSeqBit x.width x.pattern 0 0⟩

end Sys2Proof.Machine
end

