-- ==== Sys2Proof/Machine/Reserved.lean ====
section
/-! DEFINITION. Machine/Reserved.lean: the reserved opcodes (R69 of spec/30_encoding.md): the command "does nothing except
respond with RESP.ERR = ReservedEncoding (code 7) and every other output 0". -/

namespace Sys2Proof.Machine

/-- OP 1010 and 1011 (R69). -/
def execReservedOp1011 (_low : BitVec 1) (s : State) : Host.Outcome State Fault Refusal :=
  complete (.error .reservedEncoding) s

/-- OP 1100 to 1111 (R69). -/
def execReservedOp1215 (_low : BitVec 2) (s : State) : Host.Outcome State Fault Refusal :=
  complete (.error .reservedEncoding) s

end Sys2Proof.Machine
end

