-- ==== Sys2Proof/Machine/TotalOrder.lean ====
section
/-! DEFINITION. Machine/TotalOrder.lean: the comparator (spec/43_totalorder.md): the order function TO by its four rows (R222
to R225), its key (R236), and TOTAL_ORDER and TOTAL_ORDER_MAG (R230, R231). -/

namespace Sys2Proof.Machine

/-- Row 1 (R222), both finite and nonzero: by numericValue, and 1 for equal values. -/
def orderFinite (x y : FloatValue) : Bool :=
  if x.asNumber.lt y.asNumber then true
  else if y.asNumber.lt x.asNumber then false
  else true

/-- Row 2 (R223), both finite and at least one zero: `-0` precedes `+0`; a zero against a nonzero value by number. -/
def orderZero (x y : FloatValue) : Bool :=
  if x.isZero && y.isZero then !(x.sign == .plus && y.sign == .minus)
  else !y.asNumber.lt x.asNumber

/-- "x is -NaN" (spec/43_totalorder.md). -/
def FloatValue.isNegNaN (x : FloatValue) : Bool := x.isNaN && x.sign == .minus

/-- "x is +NaN". -/
def FloatValue.isPosNaN (x : FloatValue) : Bool := x.isNaN && x.sign == .plus

/-- "x is -Inf". -/
def FloatValue.isNegInf (x : FloatValue) : Bool := x.isInfinite && x.sign == .minus

/-- "x is +Inf". -/
def FloatValue.isPosInf (x : FloatValue) : Bool := x.isInfinite && x.sign == .plus

/-- Row 3 (R224), one or both NaN; two of the same sign by their magnitude bits (D12). -/
def orderNaN (x y : FloatValue) : Bool :=
  if x.isNegNaN && !y.isNegNaN then true
  else if y.isNegNaN && !x.isNegNaN then false
  else if y.isPosNaN && !x.isPosNaN then true
  else if x.isPosNaN && !y.isPosNaN then false
  else if x.sign = .plus then decide (x.magnitude ≤ y.magnitude)
  else decide (x.magnitude ≥ y.magnitude)

/-- Row 4 (R225), at least one infinite and neither NaN. -/
def orderInfinite (x y : FloatValue) : Bool :=
  if x.isNegInf then true
  else if y.isNegInf then false
  else if y.isPosInf then true
  else false

/-- TO(x, y): the decision table, "evaluated top-down, first match wins" (R222 to R225). -/
def totalOrder (x y : FloatValue) : Bool :=
  if x.isFinite && y.isFinite && !x.isZero && !y.isZero then orderFinite x y
  else if x.isFinite && y.isFinite then orderZero x y
  else if x.isNaN || y.isNaN then orderNaN x y
  else orderInfinite x y

/-- `key_W(P)` as an unsigned integer (R236): the pattern with every bit inverted when its sign is 1, else with its sign
bit set. A second formulation of the order, for claims; the commands run TO. -/
def FloatValue.key (x : FloatValue) : Nat :=
  if x.rawSign = 1 then (x.pattern ^^^ BitVec.allOnes x.width.bits).toNat
  else (x.pattern ^^^ BitVec.twoPow x.width.bits (x.width.bits - 1)).toNat

/-- The operands of a comparison: both format fields are checked, then that they agree (R220, R230, R264). -/
def comparedOperands (fa fb : FormatCode) (c : Command) : Except CmdError (FloatValue × FloatValue) := do
  let wa ← usedFormat fa
  let wb ← usedFormat fb
  raiseIf (wa ≠ wb) .typeMismatch
  return (patternOperand wa c.opa, patternOperand wa c.opb)

/-- TOTAL_ORDER (R230). -/
def outcomeTotalOrder (fa fb : FormatCode) (c : Command) : Except CmdError Response := do
  let (x, y) ← comparedOperands fa fb c
  return boolOut (BitVec.ofBool (totalOrder x y))

/-- TOTAL_ORDER. -/
def execTotalOrder (fa fb : FormatCode) (s : State) : Host.Outcome State Fault Refusal :=
  complete (outcomeTotalOrder fa fb s.current) s

/-- TOTAL_ORDER_MAG (R231): `totalOrder(|x|, |y|)`. -/
def outcomeTotalOrderMag (fa fb : FormatCode) (c : Command) : Except CmdError Response := do
  let (x, y) ← comparedOperands fa fb c
  return boolOut (BitVec.ofBool (totalOrder x.abs y.abs))

/-- TOTAL_ORDER_MAG. -/
def execTotalOrderMag (fa fb : FormatCode) (s : State) : Host.Outcome State Fault Refusal :=
  complete (outcomeTotalOrderMag fa fb s.current) s

end Sys2Proof.Machine
end

