-- ==== Sys2Proof/Machine/Dispatch.lean ====
section
/-! DEFINITION. Machine/Dispatch.lean: one arm for each constructor of Instr (R65, R69 of spec/30_encoding.md). -/

namespace Sys2Proof.Machine

def exec (i : Instr) (s : State) : Host.Outcome State Fault Refusal :=
  match i with
  | .decode fa => Sys2Proof.Machine.execDecode fa s
  | .fromNumeric ord => Sys2Proof.Machine.execFromNumeric ord s
  | .fromBytes fa ord => Sys2Proof.Machine.execFromBytes fa ord s
  | .fromFields fa => Sys2Proof.Machine.execFromFields fa s
  | .toFields fa => Sys2Proof.Machine.execToFields fa s
  | .bitAt fa => Sys2Proof.Machine.execBitAt fa s
  | .bitSet fa bv => Sys2Proof.Machine.execBitSet fa bv s
  | .bitFlip fa => Sys2Proof.Machine.execBitFlip fa s
  | .totalOrder fa fb => Sys2Proof.Machine.execTotalOrder fa fb s
  | .totalOrderMag fa fb => Sys2Proof.Machine.execTotalOrderMag fa fb s
  | .reservedOp1011 low => Sys2Proof.Machine.execReservedOp1011 low s
  | .reservedOp1215 low => Sys2Proof.Machine.execReservedOp1215 low s

end Sys2Proof.Machine
end

