-- ==== Sys2Proof/Machine/Step.lean ====
section
/-! DEFINITION. Machine/Step.lean: one step of the model is one whole transaction, a command and its response (R49 of
spec/20_memory.md, R295 of spec/70_reset_and_hazards.md). -/

namespace Sys2Proof.Machine

/-- The oldest command not yet answered is sampled, its word decoded, and its response given (R49, R50, R60). With no command
presented there is nothing to respond to, and nothing changes (log entry 4). -/
def step (s : State) : Host.Outcome State Fault Refusal :=
  match s.pending with
  | [] => .next s
  | c :: rest => exec (decode c.cmd) (s.accept c rest)

/-- The word `w` on the command port of the next command to be answered. Where the host has presented a command, its word is
replaced and its operand ports stay; where it has presented none, one is presented with the operand ports as they stand.
This stands for the host's presenting a command, which is how a program comes to run (log entry 3). -/
def State.withFetchWord (s : State) (nbits w : Nat) : State :=
  let word : CmdWord := BitVec.ofNat 16 (w % 2 ^ nbits)
  match s.pending with
  | [] => { s with pending := [{ s.current with cmd := word }] }
  | c :: rest => { s with pending := { c with cmd := word } :: rest }

end Sys2Proof.Machine
end

