-- ==== Sys2Proof/Machine/Assembler.lean ====
section
/-! DEFINITION. Machine/Assembler.lean: the assembler forms of R76 and the pseudo-instruction of R77 (spec/30_encoding.md), as
terms, not as text: what command sample the host presents for each form. Log entry 16. -/

namespace Sys2Proof

/-- The format suffixes `.f16`, `.f32`, `.f64` (R76). -/
def Width.formatCode : Width → FormatCode
  | .w16 => .f16
  | .w32 => .f32
  | .w64 => .f64

end Sys2Proof

namespace Sys2Proof.Machine

/-- The byte-order suffixes of R76. -/
inductive OrderSuffix where
  | nat
  | nata
  | le
  | be
  | net
  deriving DecidableEq, Repr

/-- The ORD code of a suffix (R76). -/
def OrderSuffix.orderCode : OrderSuffix → OrderCode
  | .nat => .native
  | .nata => .nativeAligned
  | .le => .littleEndian
  | .be => .bigEndian
  | .net => .network

/-- A line of assembler, its operands in the order of R76. -/
inductive Asm where
  | decode (fa : Width) (a : Port)
  | fromNumeric (ord : OrderSuffix) (a : Port) (rw : BitVec 8)
  | fromBytes (fa : Width) (ord : OrderSuffix) (a : Port) (n : BitVec 8)
  | fromFields (fa : Width) (s e m : Port)
  | toFields (fa : Width) (a : Port)
  | bitAt (fa : Width) (a : Port) (i : BitVec 8)
  | bitSet (fa : Width) (a : Port) (i : BitVec 8) (v : BitVec 1)
  | bitFlip (fa : Width) (a : Port) (i : BitVec 8)
  | totalOrder (fa fb : Width) (a b : Port)
  | totalOrderMag (fa fb : Width) (a b : Port)
  /-- The one pseudo-instruction (R77). -/
  | abs (fa : Width) (a : Port)
  deriving DecidableEq, Repr

/-- The command a form is written for; `abs.fa a` is `bit_set.fa a, 0, 0` (R77). -/
def Asm.instr : Asm → Instr
  | .decode fa _ => .decode fa.formatCode
  | .fromNumeric ord _ _ => .fromNumeric ord.orderCode
  | .fromBytes fa ord _ _ => .fromBytes fa.formatCode ord.orderCode
  | .fromFields fa _ _ _ => .fromFields fa.formatCode
  | .toFields fa _ => .toFields fa.formatCode
  | .bitAt fa _ _ => .bitAt fa.formatCode
  | .bitSet fa _ _ v => .bitSet fa.formatCode v
  | .bitFlip fa _ _ => .bitFlip fa.formatCode
  | .totalOrder fa fb _ _ => .totalOrder fa.formatCode fb.formatCode
  | .totalOrderMag fa fb _ _ => .totalOrderMag fa.formatCode fb.formatCode
  | .abs fa _ => .bitSet fa.formatCode 0

/-- `CMD = OP + 16·FA + 64·FB + 256·ORD + 2048·BV` (R76). -/
def asmWord (op fa fb ord bv : Nat) : CmdWord :=
  BitVec.ofNat 16 (op + 16 * fa + 64 * fb + 256 * ord + 2048 * bv)

/-- The sample presented for a form: "A port marked - is written 0" (R76). -/
def Asm.assemble (a : Asm) : Command :=
  let f (w : Width) : Nat := w.code.toNat
  let o (x : OrderSuffix) : Nat := (orderCodeBits x.orderCode).toNat
  match a with
  | .decode fa a => ⟨asmWord 0 (f fa) 0 0 0, a, 0, 0, 0⟩
  | .fromNumeric ord a rw => ⟨asmWord 1 0 0 (o ord) 0, a, 0, 0, rw⟩
  | .fromBytes fa ord a n => ⟨asmWord 2 (f fa) 0 (o ord) 0, a, 0, 0, n⟩
  | .fromFields fa s e m => ⟨asmWord 3 (f fa) 0 0 0, s, e, m, 0⟩
  | .toFields fa a => ⟨asmWord 4 (f fa) 0 0 0, a, 0, 0, 0⟩
  | .bitAt fa a i => ⟨asmWord 5 (f fa) 0 0 0, a, 0, 0, i⟩
  | .bitSet fa a i v => ⟨asmWord 6 (f fa) 0 0 v.toNat, a, 0, 0, i⟩
  | .bitFlip fa a i => ⟨asmWord 7 (f fa) 0 0 0, a, 0, 0, i⟩
  | .totalOrder fa fb a b => ⟨asmWord 8 (f fa) (f fb) 0 0, a, b, 0, 0⟩
  | .totalOrderMag fa fb a b => ⟨asmWord 9 (f fa) (f fb) 0 0, a, b, 0, 0⟩
  | .abs fa a => ⟨asmWord 6 (f fa) 0 0 0, a, 0, 0, 0⟩

end Sys2Proof.Machine
end

