-- ==== Sys2Proof/Machine/Combinational.lean ====
section
/-! DEFINITION. Machine/Combinational.lean: the block as "the combinational function" of R297 (spec/70_reset_and_hazards.md): a
response as a function of one command sample and nothing else (R20). The step machine of Step.lean is claimed to agree
with it. -/

namespace Sys2Proof.Machine

/-- The outcome of a decoded command on a sample. -/
def outcomeOf (i : Instr) (c : Command) : Except CmdError Response :=
  match i with
  | .decode fa => outcomeDecode fa c
  | .fromNumeric ord => outcomeFromNumeric ord c
  | .fromBytes fa ord => outcomeFromBytes fa ord c
  | .fromFields fa => outcomeFromFields fa c
  | .toFields fa => outcomeToFields fa c
  | .bitAt fa => outcomeBitAt fa c
  | .bitSet fa bv => outcomeBitSet fa bv c
  | .bitFlip fa => outcomeBitFlip fa c
  | .totalOrder fa fb => outcomeTotalOrder fa fb c
  | .totalOrderMag fa fb => outcomeTotalOrderMag fa fb c
  | .reservedOp1011 _ | .reservedOp1215 _ => .error .reservedEncoding

/-- The response to a command sample. -/
def respond (c : Command) : Response := responseOf (outcomeOf (decode c.cmd) c)

end Sys2Proof.Machine
end

