-- ==== Sys2Proof/Machine/Render.lean ====
section
/-! DEFINITION. Machine/Render.lean: bitString (R185 of spec/42_floatvalue.md), "not a port of the block": a rendering used for
observations. -/

namespace Sys2Proof.Machine

/-- `c(0) = "0"`, `c(1) = "1"` (R185). -/
def bitChar (b : BitVec 1) : Char := if b = 1 then '1' else '0'

/-- The characters of bitString: the sign, `_`, the exponent group, `_`, the mantissa group (R185). -/
def FloatValue.bitChars (x : FloatValue) : List Char :=
  let group (start len : Nat) : List Char := (List.range len).map fun i => bitChar (x.seqBit (start + i))
  group 0 1 ++ ['_'] ++ group 1 x.width.expLen ++ ['_'] ++ group (x.width.expLen + 1) x.width.mantLen

/-- `bitString(W, P)` (R185). -/
def FloatValue.bitString (x : FloatValue) : String := String.ofList x.bitChars

end Sys2Proof.Machine
end

