-- ==== Sys2Proof/Safety.lean ====
section
/-! DEFINITION. Safety.lean: what a safe run is, and the terms claims use. A run is safe when every response that has left the
block is legal (`State.Inv`). The second part says the rules of the spec again in plain arithmetic on the pattern read as an
unsigned integer, without the machine's own definitions of fields, flags and order, so that a claim compares the two. -/

namespace Sys2Proof.Machine

/-! ### Legal responses -/

/-- What every response is, whatever command it answers. -/
structure Response.Legal (r : Response) : Prop where
  /-- Codes 1 and 8 to 15 are never produced (R260). -/
  errProduced : r.err.toNat ≤ 7 ∧ r.err ≠ 1
  /-- EINFO is 0 but for a mantissa field that overflowed (R260). -/
  detailOnlyForOverflow : r.einfo = 0 ∨ (r.err = 3 ∧ r.einfo = 1)
  /-- "Every other output is 0" (R262). -/
  failedDrivesNothing : r.err ≠ 0 → r = { Response.zero with err := r.err, einfo := r.einfo }
  /-- "RESP.FMT is never 11" (R63). -/
  fmtDefined : r.fmt ≠ 3
  /-- BoolOut drives RESP.BOOL only (R71). -/
  booleanAlone : r.bool = 1 → r = { Response.zero with bool := 1 }
  /-- "RESP.MKIND = 3 is never produced" (R75). -/
  kindDefined : r.mkind ≠ 3
  /-- A sentinel comes with MNUM = 0 and MSCALE = 0 (R75). -/
  sentinelEmpty : r.mkind ≠ 0 → r.mnum = 0 ∧ r.mscale = 0
  /-- "Exactly one of bits 0 to 4 is 1 in a driven RESP.CLASS" (R73). -/
  oneCategory : r.cls ≠ 0 → r.cls.extractLsb' 0 5 ∈ [1#5, 2#5, 4#5, 8#5, 16#5]
  /-- Without a record, the outputs that only a record drives are 0 (R71). -/
  recordOrNothing : r.cls = 0 → r.bits = 0 ∧ r.bias = 0 ∧ r.uexp = 0 ∧ r.mkind = 0 ∧ r.mnum = 0 ∧ r.mscale = 0
  /-- RESP.BITS[63:W], RESP.EXP[10:e] and RESP.MANT[51:m] are 0 (R72). -/
  fieldsFit : ∀ w : Width, r.fmt = w.code →
    r.bits.toNat < 2 ^ w.bits ∧ r.exp.toNat < 2 ^ w.expLen ∧ r.mant.toNat < 2 ^ w.mantLen
  /-- A record's pattern is its three fields put together (R100). -/
  bitsAreFields : ∀ w : Width, r.cls ≠ 0 → r.fmt = w.code →
    r.bits.toNat = r.sign.toNat * 2 ^ (w.bits - 1) + r.exp.toNat * 2 ^ w.mantLen + r.mant.toNat
  /-- "RESP.CLASS bit 9 = rawSign" (R149). -/
  signFlag : r.cls ≠ 0 → r.cls.getLsbD 9 = (r.sign == 1)
  /-- The values unbiasedExponent takes lie in [-1022, 1024] (R74). -/
  exponentRange : -1022 ≤ r.uexp.toInt ∧ r.uexp.toInt ≤ 1024

/-- The invariant of a safe run: every response that has left the block is legal. -/
def State.Inv (s : State) : Prop := ∀ r ∈ s.responses, r.Legal

/-- The response a step or a meaning gave, if it answered a next state: the last that left the block. -/
def lastResponse (o : Host.Outcome State Fault Refusal) : Option Response :=
  match o with
  | .next t => t.responses.getLast?
  | .fault _ => none
  | .refused _ => none

/-- The rational a scaled number is. -/
def Scaled.toRat (v : Scaled) : ℚ := (v.num : ℚ) * 2 ^ v.exp

end Sys2Proof.Machine

namespace Sys2Proof.Claim

open Sys2Proof.Machine

/-! ### Fields and categories of a pattern, as arithmetic on its unsigned value `p` -/

/-- rawSign (R100). -/
def signOf (w : Width) (p : Nat) : Nat := p / 2 ^ (w.bits - 1)

/-- E (R100). -/
def expOf (w : Width) (p : Nat) : Nat := p / 2 ^ w.mantLen % 2 ^ w.expLen

/-- F (R100). -/
def fracOf (w : Width) (p : Nat) : Nat := p % 2 ^ w.mantLen

/-- `P[W-2:0]`. -/
def magOf (w : Width) (p : Nat) : Nat := p % 2 ^ (w.bits - 1)

/-- R141. -/
abbrev IsZero (w : Width) (p : Nat) : Prop := expOf w p = 0 ∧ fracOf w p = 0

/-- R142. -/
abbrev IsSubnormal (w : Width) (p : Nat) : Prop := expOf w p = 0 ∧ fracOf w p ≠ 0

/-- R146: `1 ≤ E ≤ 2^e - 2`. -/
abbrev IsNormal (w : Width) (p : Nat) : Prop := 1 ≤ expOf w p ∧ expOf w p ≤ 2 ^ w.expLen - 2

/-- R143. -/
abbrev IsInfinite (w : Width) (p : Nat) : Prop := expOf w p = 2 ^ w.expLen - 1 ∧ fracOf w p = 0

/-- R144. -/
abbrev IsNaN (w : Width) (p : Nat) : Prop := expOf w p = 2 ^ w.expLen - 1 ∧ fracOf w p ≠ 0

/-- R147. -/
abbrev IsFinite (w : Width) (p : Nat) : Prop := expOf w p ≠ 2 ^ w.expLen - 1

/-- The value the IEEE formula of R154 gives a finite pattern. -/
def ieeeValue (w : Width) (p : Nat) : ℚ :=
  (-1) ^ signOf w p *
    (if expOf w p = 0 then (fracOf w p : ℚ) / 2 ^ w.mantLen * 2 ^ (1 - (w.bias : ℤ))
     else (1 + (fracOf w p : ℚ) / 2 ^ w.mantLen) * 2 ^ ((expOf w p : ℤ) - w.bias))

/-- R236 as arithmetic: the negative patterns in reverse order, below the positive ones. -/
def orderKey (w : Width) (p : Nat) : Nat :=
  if p < 2 ^ (w.bits - 1) then p + 2 ^ (w.bits - 1) else 2 ^ w.bits - 1 - p

/-- The bytes of `p` in the other order: byte j of the result, counted from the least significant, is byte n-1-j of p. -/
def byteSwap (n p : Nat) : Nat :=
  ((List.range n).map fun j => p / 256 ^ (n - 1 - j) % 256 * 256 ^ j).sum

/-! ### Response groups (R71) -/

/-- `r` is RecordOut(w, p): every output, as R62 and R71 to R75 and the rules R140 to R153 give it. -/
structure RecordSpec (w : Width) (p : Nat) (r : Response) : Prop where
  err : r.err = 0
  einfo : r.einfo = 0
  bool : r.bool = 0
  fmt : r.fmt = w.code
  bits : r.bits.toNat = p
  sign : r.sign.toNat = signOf w p
  exp : r.exp.toNat = expOf w p
  mant : r.mant.toNat = fracOf w p
  bias : r.bias.toNat = 2 ^ (w.expLen - 1) - 1
  isZero : r.cls.getLsbD 0 = decide (IsZero w p)
  isSubnormal : r.cls.getLsbD 1 = decide (IsSubnormal w p)
  isNormal : r.cls.getLsbD 2 = decide (IsNormal w p)
  isInfinite : r.cls.getLsbD 3 = decide (IsInfinite w p)
  isNaN : r.cls.getLsbD 4 = decide (IsNaN w p)
  isSignalingNaN : r.cls.getLsbD 5 = decide (IsNaN w p ∧ fracOf w p < 2 ^ (w.mantLen - 1))
  isQuietNaN : r.cls.getLsbD 6 = decide (IsNaN w p ∧ 2 ^ (w.mantLen - 1) ≤ fracOf w p)
  isFinite : r.cls.getLsbD 7 = decide (IsFinite w p)
  isCanonical : r.cls.getLsbD 8 = decide (¬ (IsNaN w p ∧ 2 ^ (w.mantLen - 1) < fracOf w p))
  minus : r.cls.getLsbD 9 = decide (signOf w p = 1)
  uexp : r.uexp.toInt =
    if IsNormal w p ∨ IsSubnormal w p then (expOf w p : ℤ) - (2 ^ (w.expLen - 1) - 1) + 1 else 0
  mkind : r.mkind.toNat = if IsInfinite w p then 1 else if IsNaN w p then 2 else 0
  mnum : r.mnum.toNat =
    if IsNormal w p then 2 ^ w.mantLen + fracOf w p else if IsSubnormal w p then fracOf w p else 0
  mscale : r.mscale.toNat = if IsNormal w p then w.mantLen + 1 else if IsFinite w p then w.mantLen else 0

/-- `r` is TupleOut(w, p): FMT, SIGN, EXP and MANT, every other output 0 (R71, R181). -/
def TupleSpec (w : Width) (p : Nat) (r : Response) : Prop :=
  r.sign.toNat = signOf w p ∧ r.exp.toNat = expOf w p ∧ r.mant.toNat = fracOf w p ∧
    r = { Response.zero with fmt := w.code, sign := r.sign, exp := r.exp, mant := r.mant }

/-- BoolOut(b): RESP.BOOL only (R71). -/
def boolResponse (b : Bool) : Response := { Response.zero with bool := if b then 1 else 0 }

/-- A failed command's response: a code, a detail, every other output 0 (R262). -/
def failure (code : BitVec 4) (detail : BitVec 2) : Response := { Response.zero with err := code, einfo := detail }

/-! ### Error priority (R260, R264) -/

/-- e, m and W of a format code, 0 for the reserved one. -/
def codeWidth : FormatCode → Nat × Nat × Nat
  | .f16 => (16, 5, 10)
  | .f32 => (32, 8, 23)
  | .f64 => (64, 11, 52)
  | .reserved => (0, 0, 0)

/-- The checks of a command in the order of R264, each with the code and detail it reports (R260). -/
def checksInOrder (i : Instr) (c : Command) : List (Bool × BitVec 4 × BitVec 2) :=
  let fmt (f : FormatCode) : Bool × BitVec 4 × BitVec 2 := (f == .reserved, 7, 0)
  let ord (o : OrderCode) : Bool × BitVec 4 × BitVec 2 :=
    (o == .reserved101 || o == .reserved110 || o == .reserved111, 7, 0)
  let index (f : FormatCode) : Bool × BitVec 4 × BitVec 2 := ((codeWidth f).1 ≤ c.aux.toNat, 6, 0)
  match i with
  | .reservedOp1011 _ | .reservedOp1215 _ => [(true, 7, 0)]
  | .decode fa | .toFields fa => [fmt fa]
  | .fromNumeric o => [ord o]
  | .fromBytes fa o => [fmt fa, ord o, (c.aux.toNat * 8 != (codeWidth fa).1, 2, 0)]
  | .fromFields fa =>
    [fmt fa, (2 ≤ c.opa.toNat, 4, 0), (2 ^ (codeWidth fa).2.1 ≤ c.opb.toNat, 3, 0),
      (2 ^ (codeWidth fa).2.2 ≤ c.opc.toNat, 3, 1)]
  | .bitAt fa | .bitSet fa _ | .bitFlip fa => [fmt fa, index fa]
  | .totalOrder fa fb | .totalOrderMag fa fb => [fmt fa, fmt fb, (fa != fb, 5, 0)]

/-- The code and detail of the first check that applies, `(0, 0)` where none does (R264). -/
def firstError (i : Instr) (c : Command) : BitVec 4 × BitVec 2 :=
  (((checksInOrder i c).find? (·.1)).map (·.2)).getD (0, 0)

/-! ### What each opcode reads (R67, R68) -/

/-- The fields and ports an opcode uses. -/
structure Uses where
  fa : Bool := false
  fb : Bool := false
  ord : Bool := false
  bv : Bool := false
  opa : Bool := false
  opb : Bool := false
  opc : Bool := false
  aux : Bool := false
  deriving DecidableEq, Repr

/-- The table of R67, by OP; a reserved opcode uses nothing. -/
def usesOf (op : Nat) : Uses :=
  match op with
  | 0 => { fa := true, opa := true }
  | 1 => { ord := true, opa := true, aux := true }
  | 2 => { fa := true, ord := true, opa := true, aux := true }
  | 3 => { fa := true, opa := true, opb := true, opc := true }
  | 4 => { fa := true, opa := true }
  | 5 => { fa := true, opa := true, aux := true }
  | 6 => { fa := true, bv := true, opa := true, aux := true }
  | 7 => { fa := true, opa := true, aux := true }
  | 8 => { fa := true, fb := true, opa := true, opb := true }
  | 9 => { fa := true, fb := true, opa := true, opb := true }
  | _ => {}

/-- Two samples agree on OP and on every field and port R67 lists as used for it. -/
def AgreeOnUsed (c d : Command) : Prop :=
  let u := usesOf (c.cmd.toNat % 16)
  d.cmd.toNat % 16 = c.cmd.toNat % 16 ∧
  (u.fa = true → d.cmd.extractLsb' 4 2 = c.cmd.extractLsb' 4 2) ∧
  (u.fb = true → d.cmd.extractLsb' 6 2 = c.cmd.extractLsb' 6 2) ∧
  (u.ord = true → d.cmd.extractLsb' 8 3 = c.cmd.extractLsb' 8 3) ∧
  (u.bv = true → d.cmd.extractLsb' 11 1 = c.cmd.extractLsb' 11 1) ∧
  (u.opa = true → d.opa = c.opa) ∧ (u.opb = true → d.opb = c.opb) ∧ (u.opc = true → d.opc = c.opc) ∧
  (u.aux = true → d.aux = c.aux)

/-- The bits of the command word that a command of this opcode uses: OP, and the fields of R67 at the places of R61. -/
def usedBits (op : Nat) : CmdWord :=
  let u := usesOf op
  0x000F#16 ||| (if u.fa then 0x0030#16 else 0) ||| (if u.fb then 0x00C0#16 else 0) |||
    (if u.ord then 0x0700#16 else 0) ||| (if u.bv then 0x0800#16 else 0)

end Sys2Proof.Claim
end

