-- ==== Sys2Proof/Certificates/Slice0/Obligations.lean ====
section
/-! DEFINITION. Certificates/Slice0/Obligations.lean: the statements for the provers. A statement that a meaning answers a next
state writes that state out, `{ s with responses := s.responses ++ [r] }`: one response more, and nothing else changed, which is
the meaning's frame (R20, R49, R262). -/

open Sys2Proof Sys2Proof.Machine Sys2Proof.Claim

/-! ### Encoding and decoding -/

/-- Words written out bit by bit from R61 and R63 to R65 decode to the commands they stand for. -/
def Obligations.WordsOfTheOpcodeMapDecode : Prop :=
  decode 0b0000_0_000_00_01_0000#16 = .decode .f32 ∧
  decode 0b0000_0_011_00_00_0001#16 = .fromNumeric .bigEndian ∧
  decode 0b0000_0_100_00_10_0010#16 = .fromBytes .f64 .network ∧
  decode 0b0000_0_000_00_10_0011#16 = .fromFields .f64 ∧
  decode 0b0000_0_000_00_01_0100#16 = .toFields .f32 ∧
  decode 0b0000_0_000_10_01_0101#16 = .bitAt .f32 ∧
  decode 0b0000_1_000_00_01_0110#16 = .bitSet .f32 1 ∧
  decode 0b0000_0_000_00_10_0111#16 = .bitFlip .f64 ∧
  decode 0b0000_0_000_01_00_1000#16 = .totalOrder .f16 .f32 ∧
  decode 0b1111_0_000_10_00_1001#16 = .totalOrderMag .f16 .f64 ∧
  decode 0b0000_0_000_00_11_1011#16 = .reservedOp1011 1 ∧
  decode 0b0000_0_000_00_00_1110#16 = .reservedOp1215 2

/-- Decode and encode agree in both directions: any word that agrees with `encode i` on the bits the opcode uses decodes to
`i`, whatever its ignored bits, and encoding a decoded word gives the word with its ignored bits 0. -/
def Obligations.DecodeAndEncodeAgree : Prop :=
  (∀ (i : Instr) (w : CmdWord),
    w &&& usedBits i.opcode.toNat = encode i &&& usedBits i.opcode.toNat → decode w = i) ∧
  ∀ w : CmdWord, encode (decode w) = w &&& usedBits (w.toNat % 16)

/-- Every command word is covered by exactly one row of the opcode table, the row of the command it decodes to. -/
def Obligations.EachWordIsInExactlyOneOpcodeRow : Prop :=
  ∀ w : CmdWord, (opcodeTable.filter (·.covers w)).map (·.mnemonic) = [(decode w).mnemonic]

/-- R76: the command word an assembler form assembles to decodes to the command it is written for. -/
def Obligations.AssembledWordDecodesToItsCommand : Prop :=
  ∀ a : Asm, decode a.assemble.cmd = a.instr ∧ a.assemble.cmd = encode a.instr ∧ a.instr.wellFormed = true

/-! ### The step -/

/-- A step samples the oldest pending command and runs the command its word decodes to; with none pending it changes
nothing (the last is the model's choice, log entry 4). -/
def Obligations.StepRunsTheDecodedCommand : Prop :=
  (∀ (s : State) (c : Command) (rest : List Command), s.pending = c :: rest →
    step s = exec (decode c.cmd) { current := c, pending := rest, responses := s.responses }) ∧
  (∀ (s : State) (i : Instr) (c : Command) (rest : List Command), s.pending = c :: rest → c.cmd = encode i →
    step s = exec i { current := c, pending := rest, responses := s.responses }) ∧
  ∀ s : State, s.pending = [] → step s = .next s

/-- R296: every command terminates and gives exactly one response; there is no input on which the block hangs. -/
def Obligations.EveryCommandGivesExactlyOneResponse : Prop :=
  ∀ (s : State) (c : Command) (rest : List Command), s.pending = c :: rest →
    ∃ r, step s = .next { current := c, pending := rest, responses := s.responses ++ [r] }

/-- R50, R297: running as many steps as commands are pending answers them all, in order, each response being the one the
combinational function gives for its own command. -/
def Obligations.RunAnswersAllPendingCommandsInOrder : Prop :=
  ∀ s : State, Host.Core.run Sys2Proof.core s.pending.length s =
    .next { current := s.pending.getLast?.getD s.current, pending := [],
            responses := s.responses ++ s.pending.map respond }

/-- R20, R49: the response to a command depends on that command's sample alone, not on what came before or is to come. -/
def Obligations.ResponseDependsOnTheCommandAlone : Prop :=
  ∀ (s t : State) (c : Command) (rest rest' : List Command), s.pending = c :: rest → t.pending = c :: rest' →
    ∃ r, lastResponse (step s) = some r ∧ lastResponse (step t) = some r

/-- R263: the command after another is processed as if the earlier one, failed or not, had not occurred. -/
def Obligations.EarlierCommandLeavesNoTrace : Prop :=
  ∀ (s : State) (c d : Command) (rest : List Command), s.pending = c :: d :: rest →
    ∃ t r q, step s = .next t ∧ t.responses = s.responses ++ [r] ∧
      step t = .next { current := d, pending := rest, responses := s.responses ++ [r, q] } ∧
      step { s with pending := d :: rest } =
        .next { current := d, pending := rest, responses := s.responses ++ [q] }

/-- R68: CMD[15:12] and every field and port R67 does not list for the opcode do not affect the response. -/
def Obligations.IgnoredPartsDoNotAffectTheResponse : Prop :=
  ∀ (s : State) (c d : Command) (rest : List Command), AgreeOnUsed c d →
    ∃ r, lastResponse (step { s with pending := c :: rest }) = some r ∧
      lastResponse (step { s with pending := d :: rest }) = some r

/-- R66: the port bits above the width of a pattern operand are ignored, for every command that takes one. -/
def Obligations.PortBitsAboveTheWidthAreIgnored : Prop :=
  ∀ (w : Width) (v : BitVec 1) (s : State) (c d : Command),
    c.aux = d.aux → c.opa.toNat % 2 ^ w.bits = d.opa.toNat % 2 ^ w.bits →
    c.opb.toNat % 2 ^ w.bits = d.opb.toNat % 2 ^ w.bits →
    ∀ i ∈ [Instr.decode w.formatCode, .toFields w.formatCode, .bitAt w.formatCode, .bitSet w.formatCode v,
        .bitFlip w.formatCode, .totalOrder w.formatCode w.formatCode, .totalOrderMag w.formatCode w.formatCode],
      ∃ r, lastResponse (exec i { s with current := c }) = some r ∧
        lastResponse (exec i { s with current := d }) = some r

/-! ### Invariant and reset -/

/-- From every state in which all delivered responses are legal, a step leads to such a state. -/
def Obligations.StepKeepsResponsesLegal : Prop :=
  ∀ s t : State, s.Inv → step s = .next t → t.Inv

/-- The state after reset meets the invariant; nothing has been presented, no response has left, and a step changes nothing. All of
it is said of the model's own fields: that the ports read 0 is its choice of log entry 2, that no command is pending of log entry 3,
that a step with none pending changes nothing of log entry 4, and that no response is listed of log entry 10. -/
def Obligations.ResetStateIsLegalAndIdle : Prop :=
  State.reset.Inv ∧ State.reset.pending = [] ∧ State.reset.responses = [] ∧
    State.reset.current = { cmd := 0, opa := 0, opb := 0, opc := 0, aux := 0 } ∧ step State.reset = .next State.reset

/-- Reset abandons what is pending, with no response, and after it the response to every command is the one the combinational
function gives (70_reset_and_hazards.md, section 1). That every pending command counts as in flight and is dropped, and that
delivered responses stay, are the model's choices (log entry 9); that State.reset has none pending and lists no response are those of
log entries 3 and 10. -/
def Obligations.ResetAbandonsPendingCommands : Prop :=
  ∀ (s : State) (c : Command), s.assertReset.pending = [] ∧ s.assertReset.responses = s.responses ∧
    step { s.assertReset with pending := [c] } =
      .next { current := c, pending := [], responses := s.responses ++ [respond c] } ∧
    step { State.reset with pending := [c] } =
      .next { current := c, pending := [], responses := [respond c] }

/-! ### Results: BitDecoder -/

/-- R110: DECODE gives the record of the low W bits of OPA. -/
def Obligations.DecodeGivesTheRecordOfItsOperand : Prop :=
  ∀ (w : Width) (s : State), ∃ r,
    exec (.decode w.formatCode) s = .next { s with responses := s.responses ++ [r] } ∧
    RecordSpec w (s.current.opa.toNat % 2 ^ w.bits) r

/-- R111: FROM_BYTES, for a buffer of W/8 bytes, gives the record of the pattern whose most significant byte is the first of the
buffer under BIG and the last under LITTLE; any other length fails with LengthMismatchError. -/
def Obligations.FromBytesResult : Prop :=
  ∀ (w : Width) (ord : OrderCode) (o : ByteOrder) (s : State), usedOrder ord = .ok o →
    (s.current.aux.toNat * 8 = w.bits → ∃ r,
      exec (.fromBytes w.formatCode ord) s = .next { s with responses := s.responses ++ [r] } ∧
      RecordSpec w
        (match o with
          | .little => s.current.opa.toNat % 2 ^ w.bits
          | .big => byteSwap (w.bits / 8) (s.current.opa.toNat % 2 ^ w.bits)) r) ∧
    (s.current.aux.toNat * 8 ≠ w.bits →
      exec (.fromBytes w.formatCode ord) s = .next { s with responses := s.responses ++ [failure 2 0] })

/-- R112: FROM_NUMERIC snaps AUX to a width, packs the binary64 value into it (R103) and permutes the bytes of the pattern it then
classifies. -/
def Obligations.FromNumericResult : Prop :=
  ∀ (ord : OrderCode) (o : ByteOrder) (s : State), usedOrder ord = .ok o →
    ∃ (w : Width) (r : Response),
      (w = .w16 ↔ s.current.aux.toNat < 32) ∧ (w = .w32 ↔ 32 ≤ s.current.aux.toNat ∧ s.current.aux.toNat < 63) ∧
      exec (.fromNumeric ord) s = .next { s with responses := s.responses ++ [r] } ∧
      RecordSpec w
        (let q := match w with
          | .w16 => (Config.narrow16 s.current.opa).toNat
          | .w32 => (Config.narrow32 s.current.opa).toNat
          | .w64 => s.current.opa.toNat
        match o with
          | .big => q
          | .little => byteSwap (w.bits / 8) q) r

/-- R43, R64: what each byte-order option resolves to; the two native options are the one open parameter. -/
def Obligations.ByteOrderOptionsResolve : Prop :=
  usedOrder .bigEndian = .ok .big ∧ usedOrder .network = .ok .big ∧ usedOrder .littleEndian = .ok .little ∧
  usedOrder .native = .ok Config.nativeOrder ∧ usedOrder .nativeAligned = .ok Config.nativeOrder

/-- R101: byte order BIG returns the pattern, LITTLE reverses its bytes and keeps the bits inside each. -/
def Obligations.PermuteReversesWholeBytes : Prop :=
  ∀ (w : Width) (q : BitVec w.bits), permute w q .big = q ∧
    ∀ j < w.bits / 8, ∀ b < 8,
      (permute w q .little).getLsbD (8 * j + b) = q.getLsbD (w.bits - 8 - 8 * j + b)

/-- Permuting twice in one order gives the pattern back (an inference 40_bitdecoder.md, section 1, marks as its own). -/
def Obligations.PermutingTwiceGivesThePatternBack : Prop :=
  ∀ (w : Width) (q : BitVec w.bits) (o : ByteOrder), permute w (permute w q o) o = q

/-- R110, corner case: DECODE gives the same response as FROM_BYTES little-endian of W/8 bytes on the same OPA. -/
def Obligations.DecodeEqualsLittleEndianFromBytes : Prop :=
  ∀ (w : Width) (a : Port),
    respond (Asm.decode w a).assemble = respond (Asm.fromBytes w .le a (BitVec.ofNat 8 (w.bits / 8))).assemble

/-! ### Results: fields and bits -/

/-- R180: FROM_FIELDS gives the record of `s ‖ E ‖ F` when the three fit; otherwise the first check that fails, in the order sign,
exponent, mantissa, is reported. -/
def Obligations.FromFieldsResult : Prop :=
  ∀ (w : Width) (s : State),
    (s.current.opa.toNat ≤ 1 → s.current.opb.toNat < 2 ^ w.expLen → s.current.opc.toNat < 2 ^ w.mantLen → ∃ r,
      exec (.fromFields w.formatCode) s = .next { s with responses := s.responses ++ [r] } ∧
      RecordSpec w (s.current.opa.toNat * 2 ^ (w.bits - 1) + s.current.opb.toNat * 2 ^ w.mantLen + s.current.opc.toNat)
        r) ∧
    (1 < s.current.opa.toNat →
      exec (.fromFields w.formatCode) s = .next { s with responses := s.responses ++ [failure 4 0] }) ∧
    (s.current.opa.toNat ≤ 1 → 2 ^ w.expLen ≤ s.current.opb.toNat →
      exec (.fromFields w.formatCode) s = .next { s with responses := s.responses ++ [failure 3 0] }) ∧
    (s.current.opa.toNat ≤ 1 → s.current.opb.toNat < 2 ^ w.expLen → 2 ^ w.mantLen ≤ s.current.opc.toNat →
      exec (.fromFields w.formatCode) s = .next { s with responses := s.responses ++ [failure 3 1] })

/-- R181: TO_FIELDS gives the field tuple of the low W bits of OPA. -/
def Obligations.ToFieldsResult : Prop :=
  ∀ (w : Width) (s : State), ∃ r,
    exec (.toFields w.formatCode) s = .next { s with responses := s.responses ++ [r] } ∧
    TupleSpec w (s.current.opa.toNat % 2 ^ w.bits) r

/-- R181, round trip: the tuple a successful FROM_FIELDS is given comes back from TO_FIELDS of its pattern, and the pattern TO_FIELDS
is given comes back from FROM_FIELDS of its tuple. -/
def Obligations.FieldTupleRoundTrip : Prop :=
  ∀ w : Width,
    (∀ s e f : Port, s.toNat ≤ 1 → e.toNat < 2 ^ w.expLen → f.toNat < 2 ^ w.mantLen →
      (respond (Asm.fromFields w s e f).assemble).err = 0 ∧
      (let t := respond (Asm.toFields w (respond (Asm.fromFields w s e f).assemble).bits).assemble
      t.err = 0 ∧ t.fmt = w.code ∧ t.sign.toNat = s.toNat ∧ t.exp.toNat = e.toNat ∧ t.mant.toNat = f.toNat)) ∧
    ∀ a : Port,
      (let t := respond (Asm.toFields w a).assemble
      let r := respond (Asm.fromFields w (t.sign.setWidth 64) (t.exp.setWidth 64) (t.mant.setWidth 64)).assemble
      r.err = 0 ∧ r.bits.toNat = a.toNat % 2 ^ w.bits)

/-- R182: BIT_AT gives `P⟨i⟩ = P[W-1-i]`, or IndexError for `i ≥ W`. -/
def Obligations.BitAtResult : Prop :=
  ∀ (w : Width) (s : State),
    (s.current.aux.toNat < w.bits →
      exec (.bitAt w.formatCode) s = .next { s with responses := s.responses ++
        [boolResponse (s.current.opa.getLsbD (w.bits - 1 - s.current.aux.toNat))] }) ∧
    (w.bits ≤ s.current.aux.toNat →
      exec (.bitAt w.formatCode) s = .next { s with responses := s.responses ++ [failure 6 0] })

/-- R183: BIT_SET gives the record of a pattern that holds the bit value at sequence index i and agrees with the operand at every
other bit, or IndexError for `i ≥ W`. -/
def Obligations.BitSetResult : Prop :=
  ∀ (w : Width) (v : BitVec 1) (s : State),
    (s.current.aux.toNat < w.bits → ∃ (r : Response) (p : Nat),
      exec (.bitSet w.formatCode v) s = .next { s with responses := s.responses ++ [r] } ∧
      RecordSpec w p r ∧ p < 2 ^ w.bits ∧
      ∀ k < w.bits, p.testBit k =
        if k = w.bits - 1 - s.current.aux.toNat then v == 1 else s.current.opa.getLsbD k) ∧
    (w.bits ≤ s.current.aux.toNat →
      exec (.bitSet w.formatCode v) s = .next { s with responses := s.responses ++ [failure 6 0] })

/-- R184: BIT_FLIP gives the record of the pattern that differs from the operand in exactly the bit at sequence index i, or
IndexError for `i ≥ W`. -/
def Obligations.BitFlipResult : Prop :=
  ∀ (w : Width) (s : State),
    (s.current.aux.toNat < w.bits → ∃ (r : Response) (p : Nat),
      exec (.bitFlip w.formatCode) s = .next { s with responses := s.responses ++ [r] } ∧
      RecordSpec w p r ∧ p < 2 ^ w.bits ∧
      ∀ k < w.bits, p.testBit k =
        if k = w.bits - 1 - s.current.aux.toNat then !s.current.opa.getLsbD k else s.current.opa.getLsbD k) ∧
    (w.bits ≤ s.current.aux.toNat →
      exec (.bitFlip w.formatCode) s = .next { s with responses := s.responses ++ [failure 6 0] })

/-- R183, R184 and the source's property of L1.6: setting a bit to the value it has, and flipping a bit twice, give the pattern
back. -/
def Obligations.BitMutationIdempotence : Prop :=
  ∀ (w : Width) (a : Port) (i : BitVec 8), i.toNat < w.bits →
    (respond (Asm.bitSet w a i (respond (Asm.bitAt w a i).assemble).bool).assemble).bits.toNat =
      a.toNat % 2 ^ w.bits ∧
    (respond (Asm.bitFlip w (respond (Asm.bitFlip w a i).assemble).bits i).assemble).bits.toNat = a.toNat % 2 ^ w.bits

/-- R77, R221: `abs.fa a` is `bit_set.fa a, 0, 0`, and gives the record of the pattern with its sign bit cleared, for every
category. -/
def Obligations.AbsPseudoInstructionClearsTheSign : Prop :=
  ∀ (w : Width) (a : Port),
    (Asm.abs w a).assemble = (Asm.bitSet w a 0 0).assemble ∧
    RecordSpec w (a.toNat % 2 ^ (w.bits - 1)) (respond (Asm.abs w a).assemble) ∧
    (FloatValue.abs (patternOperand w a)).pattern.toNat = a.toNat % 2 ^ (w.bits - 1) ∧
    (FloatValue.abs (patternOperand w a)).width = w

/-- R185: bitString has W + 2 characters: the sign, an underscore, the exponent group, an underscore and the mantissa group, each
bit as a literal 0 or 1. -/
def Obligations.BitStringRendersEachGroup : Prop :=
  ∀ (w : Width) (p : BitVec w.bits),
    let cs := (FloatValue.bitString ⟨w, p⟩).toList
    cs.length = w.bits + 2 ∧ cs[1]? = some '_' ∧ cs[w.expLen + 2]? = some '_' ∧
    ∀ i < w.bits,
      cs[i + (if i = 0 then 0 else if i ≤ w.expLen then 1 else 2)]? =
        some (if p.getLsbD (w.bits - 1 - i) then '1' else '0')

/-! ### Results: the classifier -/

/-- Exactly one category holds of every pattern, the one the three field predicates select (41_classifier.md, section 2: the spec
marks it as derived from its own definitions of the categories). -/
def Obligations.ExactlyOneCategory : Prop :=
  ∀ x : FloatValue,
    ([x.isZero, x.isSubnormal, x.isNormal, x.isInfinite, x.isNaN].filter id).length = 1 ∧
    (x.allExponentBitsZero && x.allExponentBitsOne) = false ∧
    (x.isZero = true ↔ x.allExponentBitsZero = true ∧ x.mantissaAllZero = true) ∧
    (x.isSubnormal = true ↔ x.allExponentBitsZero = true ∧ x.mantissaAllZero = false) ∧
    (x.isInfinite = true ↔ x.allExponentBitsOne = true ∧ x.mantissaAllZero = true) ∧
    (x.isNaN = true ↔ x.allExponentBitsOne = true ∧ x.mantissaAllZero = false) ∧
    (x.isNormal = true ↔ x.allExponentBitsZero = false ∧ x.allExponentBitsOne = false)

/-- R151: the stored exponent is E, and the unbiased exponent is 0 for a zero, an infinity and a NaN and `E - bias + 1` for a normal
and a subnormal, which are all the cases there are. -/
def Obligations.UnbiasedExponentFormula : Prop :=
  ∀ (w : Width) (p : BitVec w.bits),
    let x : FloatValue := ⟨w, p⟩
    x.storedExponent = expOf w p.toNat ∧
    (x.isZero = true ∨ x.isInfinite = true ∨ x.isNaN = true → x.unbiasedExponent = 0) ∧
    (¬ (x.isZero = true ∨ x.isInfinite = true ∨ x.isNaN = true) →
      (x.isNormal = true ∨ x.isSubnormal = true) ∧
      x.unbiasedExponent = (expOf w p.toNat : ℤ) - (2 ^ (w.expLen - 1) - 1) + 1)

/-- The ranges the unbiased exponent takes (an inference 41_classifier.md, section 3, marks as its own). -/
def Obligations.UnbiasedExponentRange : Prop :=
  ∀ (w : Width) (p : BitVec w.bits),
    let x : FloatValue := ⟨w, p⟩
    (x.isSubnormal = true → x.unbiasedExponent = 1 - (w.bias : ℤ)) ∧
    (x.isNormal = true → 2 - (w.bias : ℤ) ≤ x.unbiasedExponent ∧ x.unbiasedExponent ≤ 2 ^ w.expLen - 1 - (w.bias : ℤ))

/-- The mantissa value (41_classifier.md, section 4) is the sum of the weights of the set bits of `S`, which is `1 ‖ mantissa` for a normal and the mantissa
for a subnormal; 0 for a zero; the sentinels for infinities and NaNs. -/
def Obligations.MantissaValueIsTheBitSum : Prop :=
  ∀ (w : Width) (p : BitVec w.bits),
    let x : FloatValue := ⟨w, p⟩
    let m := w.mantLen
    let bit (j : Nat) : ℚ := if p.getLsbD (m - 1 - j) then 1 else 0
    (x.isNormal = true → ∃ num, x.mantissaValue = .finite num (m + 1) ∧ num = 2 ^ m + fracOf w p.toNat ∧
      (num : ℚ) / 2 ^ (m + 1) = 1 / 2 + ∑ j ∈ Finset.range m, bit j / 2 ^ (j + 2) ∧
      (1 / 2 : ℚ) ≤ (num : ℚ) / 2 ^ (m + 1) ∧ (num : ℚ) / 2 ^ (m + 1) < 1) ∧
    (x.isSubnormal = true → ∃ num, x.mantissaValue = .finite num m ∧ num = fracOf w p.toNat ∧
      (num : ℚ) / 2 ^ m = ∑ j ∈ Finset.range m, bit j / 2 ^ (j + 1) ∧
      1 / (2 : ℚ) ^ m ≤ (num : ℚ) / 2 ^ m ∧ (num : ℚ) / 2 ^ m ≤ 1 - 1 / 2 ^ m) ∧
    (x.isZero = true → x.mantissaValue = .finite 0 m) ∧
    (x.isInfinite = true → x.mantissaValue = .plusInf) ∧
    (x.isNaN = true → x.mantissaValue = .nan)

/-- numericValue is the IEEE value of the pattern, with signed zeros, infinities and NaN (41_classifier.md, section 6: the spec marks
the agreement of its formula with the IEEE one as derived). -/
def Obligations.NumericValueIsTheIeeeValue : Prop :=
  ∀ (w : Width) (p : BitVec w.bits),
    let x : FloatValue := ⟨w, p⟩
    let sg : Sign := if signOf w p.toNat = 1 then .minus else .plus
    (IsZero w p.toNat → x.numericValue = .zero sg ∧ x.asNumber.toRat = 0) ∧
    (IsNormal w p.toNat ∨ IsSubnormal w p.toNat → ∃ v, x.numericValue = .finite v ∧ v.toRat = ieeeValue w p.toNat) ∧
    (IsInfinite w p.toNat → x.numericValue = .infinity sg) ∧
    (IsNaN w p.toNat → x.numericValue = .nan)

/-- Derived in 41_classifier.md, section 6: distinct finite nonzero patterns of one width have distinct numeric values; a normal's magnitude is at least 2^(1-bias),
which is above every subnormal's; within each category the magnitude is strictly increasing in `P[W-2:0]`. -/
def Obligations.NumericValueOrdersThePatterns : Prop :=
  ∀ (w : Width) (p q : BitVec w.bits),
    let x : FloatValue := ⟨w, p⟩
    let y : FloatValue := ⟨w, q⟩
    (x.isFinite = true → x.isZero = false → y.isFinite = true → y.isZero = false →
      x.asNumber.toRat = y.asNumber.toRat → p = q) ∧
    (x.isNormal = true → (2 : ℚ) ^ (1 - (w.bias : ℤ)) ≤ |x.asNumber.toRat|) ∧
    (x.isSubnormal = true → |x.asNumber.toRat| < (2 : ℚ) ^ (1 - (w.bias : ℤ))) ∧
    (x.isNormal = true ∧ y.isNormal = true ∨ x.isSubnormal = true ∧ y.isSubnormal = true →
      magOf w p.toNat < magOf w q.toNat → |x.asNumber.toRat| < |y.asNumber.toRat|)

/-! ### Results: the total order -/

/-- Row 1 of the order (43_totalorder.md, section 2): two finite nonzero operands are ordered by numeric value, here by the IEEE
value it equals, and equal values give 1. -/
def Obligations.OrderOfFiniteNonzeroIsNumeric : Prop :=
  ∀ (w : Width) (p q : BitVec w.bits),
    IsFinite w p.toNat → IsFinite w q.toNat → ¬ IsZero w p.toNat → ¬ IsZero w q.toNat →
    (totalOrder ⟨w, p⟩ ⟨w, q⟩ = true ↔ ieeeValue w p.toNat ≤ ieeeValue w q.toNat)

/-- Row 2 of the order (43_totalorder.md, section 2): two zeros are ordered by sign, -0 before +0; a zero against a nonzero finite value by
number, here the IEEE value that numericValue equals, both zeros counting as 0. -/
def Obligations.OrderOfZeros : Prop :=
  ∀ (w : Width) (p q : BitVec w.bits),
    (IsZero w p.toNat → IsZero w q.toNat →
      (totalOrder ⟨w, p⟩ ⟨w, q⟩ = false ↔ signOf w p.toNat = 0 ∧ signOf w q.toNat = 1)) ∧
    (IsZero w p.toNat → IsFinite w q.toNat → ¬ IsZero w q.toNat →
      (totalOrder ⟨w, p⟩ ⟨w, q⟩ = true ↔ 0 ≤ ieeeValue w q.toNat)) ∧
    (IsFinite w p.toNat → ¬ IsZero w p.toNat → IsZero w q.toNat →
      (totalOrder ⟨w, p⟩ ⟨w, q⟩ = true ↔ ieeeValue w p.toNat ≤ 0))

/-- R224: a negative NaN precedes everything that is not one and a positive NaN follows everything that is not one; two of the same
sign are ordered by their magnitude bits, ascending when positive and descending when negative. -/
def Obligations.OrderOfNaNs : Prop :=
  ∀ (w : Width) (p q : BitVec w.bits),
    let neg (x : BitVec w.bits) : Prop := IsNaN w x.toNat ∧ signOf w x.toNat = 1
    let pos (x : BitVec w.bits) : Prop := IsNaN w x.toNat ∧ signOf w x.toNat = 0
    (neg p → ¬ neg q → totalOrder ⟨w, p⟩ ⟨w, q⟩ = true) ∧
    (neg q → ¬ neg p → totalOrder ⟨w, p⟩ ⟨w, q⟩ = false) ∧
    (pos q → ¬ pos p → totalOrder ⟨w, p⟩ ⟨w, q⟩ = true) ∧
    (pos p → ¬ pos q → totalOrder ⟨w, p⟩ ⟨w, q⟩ = false) ∧
    (pos p → pos q → (totalOrder ⟨w, p⟩ ⟨w, q⟩ = true ↔ magOf w p.toNat ≤ magOf w q.toNat)) ∧
    (neg p → neg q → (totalOrder ⟨w, p⟩ ⟨w, q⟩ = true ↔ magOf w q.toNat ≤ magOf w p.toNat))

/-- R225: with no NaN and at least one infinity, -Inf precedes everything and +Inf follows everything. -/
def Obligations.OrderOfInfinities : Prop :=
  ∀ (w : Width) (p q : BitVec w.bits), ¬ IsNaN w p.toNat → ¬ IsNaN w q.toNat →
    let negInf (x : BitVec w.bits) : Prop := IsInfinite w x.toNat ∧ signOf w x.toNat = 1
    let posInf (x : BitVec w.bits) : Prop := IsInfinite w x.toNat ∧ signOf w x.toNat = 0
    (negInf p → totalOrder ⟨w, p⟩ ⟨w, q⟩ = true) ∧
    (¬ negInf p → negInf q → totalOrder ⟨w, p⟩ ⟨w, q⟩ = false) ∧
    (¬ negInf p → posInf q → totalOrder ⟨w, p⟩ ⟨w, q⟩ = true) ∧
    (posInf p → IsFinite w q.toNat → totalOrder ⟨w, p⟩ ⟨w, q⟩ = false)

/-- The comparator is an unsigned comparison of keys (43_totalorder.md, section 4: derived from the four rows of the order). -/
def Obligations.OrderIsComparisonOfKeys : Prop :=
  ∀ (w : Width) (p q : BitVec w.bits),
    (FloatValue.key ⟨w, p⟩ =
      if p.getLsbD (w.bits - 1) then p.toNat ^^^ (2 ^ w.bits - 1) else p.toNat ^^^ 2 ^ (w.bits - 1)) ∧
    (totalOrder ⟨w, p⟩ ⟨w, q⟩ = true ↔ FloatValue.key ⟨w, p⟩ ≤ FloatValue.key ⟨w, q⟩)

/-- Derived in 43_totalorder.md, section 4: TO is a total order on the patterns of one width, with the all-ones pattern least and the
all-ones magnitude greatest, and it is consistent with numeric value, here the IEEE value it equals (41_classifier.md, section 6). -/
def Obligations.TotalOrderIsATotalOrder : Prop :=
  ∀ w : Width,
    let le (p q : BitVec w.bits) : Prop := totalOrder ⟨w, p⟩ ⟨w, q⟩ = true
    (∀ p, le p p) ∧ (∀ p q, le p q → le q p → p = q) ∧ (∀ p q r, le p q → le q r → le p r) ∧
    (∀ p q, le p q ∨ le q p) ∧
    (∀ p, le (BitVec.ofNat w.bits (2 ^ w.bits - 1)) p) ∧ (∀ p, le p (BitVec.ofNat w.bits (2 ^ (w.bits - 1) - 1))) ∧
    ∀ p q, IsFinite w p.toNat → ¬ IsZero w p.toNat → IsFinite w q.toNat → ¬ IsZero w q.toNat →
      ieeeValue w p.toNat < ieeeValue w q.toNat → le p q ∧ ¬ le q p

/-- R230: TOTAL_ORDER of two operands of one width compares their keys; of different widths it fails with TypeMismatchError
(R220). -/
def Obligations.TotalOrderResult : Prop :=
  ∀ (w v : Width) (s : State),
    exec (.totalOrder w.formatCode w.formatCode) s = .next { s with responses := s.responses ++
      [boolResponse (decide (orderKey w (s.current.opa.toNat % 2 ^ w.bits) ≤
        orderKey w (s.current.opb.toNat % 2 ^ w.bits)))] } ∧
    (w ≠ v → exec (.totalOrder w.formatCode v.formatCode) s =
      .next { s with responses := s.responses ++ [failure 5 0] })

/-- R231: TOTAL_ORDER_MAG of two operands of one width gives 1 iff `Px[W-2:0] ≤ Py[W-2:0]`, whatever the signs and categories; of
different widths it fails with TypeMismatchError. -/
def Obligations.TotalOrderMagResult : Prop :=
  ∀ (w v : Width) (s : State),
    exec (.totalOrderMag w.formatCode w.formatCode) s = .next { s with responses := s.responses ++
      [boolResponse (decide (s.current.opa.toNat % 2 ^ (w.bits - 1) ≤ s.current.opb.toNat % 2 ^ (w.bits - 1)))] } ∧
    (w ≠ v → exec (.totalOrderMag w.formatCode v.formatCode) s =
      .next { s with responses := s.responses ++ [failure 5 0] })

/-! ### Errors -/

/-- R69: a command with a reserved OP does nothing except respond with ReservedEncoding and every other output 0. -/
def Obligations.ReservedOpcodeRespondsReservedEncoding : Prop :=
  (∀ (low : BitVec 1) (s : State),
    exec (.reservedOp1011 low) s = .next { s with responses := s.responses ++ [failure 7 0] }) ∧
  (∀ (low : BitVec 2) (s : State),
    exec (.reservedOp1215 low) s = .next { s with responses := s.responses ++ [failure 7 0] }) ∧
  ∀ (s : State) (c : Command) (rest : List Command), s.pending = c :: rest → 10 ≤ c.cmd.toNat % 16 →
    step s = .next { current := c, pending := rest, responses := s.responses ++ [failure 7 0] }

/-- R70: a used format field that holds 11, or a used ORD field that holds a reserved code, makes the command fail with
ReservedEncoding before every other error, and with a defined opcode nothing else does. -/
def Obligations.ReservedCodeInAUsedFieldFails : Prop :=
  ∀ (i : Instr) (s : State), i.opcodeDefined = true →
    (i.formatsDefined = false ∨ i.orderDefined = false →
      exec i s = .next { s with responses := s.responses ++ [failure 7 0] }) ∧
    (i.formatsDefined = true → i.orderDefined = true →
      ∃ r, exec i s = .next { s with responses := s.responses ++ [r] } ∧ r.err ≠ 7)

/-- R264: a command reports exactly one error, the first that applies in the stated order. -/
def Obligations.FirstApplicableErrorIsReported : Prop :=
  ∀ (i : Instr) (s : State), ∃ r,
    exec i s = .next { s with responses := s.responses ++ [r] } ∧ (r.err, r.einfo) = firstError i s.current

/-- R262: an error is reported in the response of its own command and nowhere else; every other output of that response is 0, and
nothing else changes. -/
def Obligations.FailedCommandDrivesOnlyItsError : Prop :=
  ∀ (i : Instr) (s : State), ∃ r,
    exec i s = .next { s with responses := s.responses ++ [r] } ∧ (r.err ≠ 0 → r = failure r.err r.einfo)

/-- R261: DECODE, TO_FIELDS, FROM_NUMERIC and the comparator raise only the errors R261 leaves them. -/
def Obligations.CommandsRaiseOnlyTheirErrors : Prop :=
  ∀ (fa fb : FormatCode) (ord : OrderCode) (s : State),
    (∀ i ∈ [Instr.decode fa, .toFields fa, .fromNumeric ord], ∃ r,
      exec i s = .next { s with responses := s.responses ++ [r] } ∧ (r.err = 0 ∨ r.err = 7)) ∧
    ∀ i ∈ [Instr.totalOrder fa fb, .totalOrderMag fa fb], ∃ r,
      exec i s = .next { s with responses := s.responses ++ [r] } ∧ (r.err = 0 ∨ r.err = 5 ∨ r.err = 7)
end

