-- ==== Sys2Proof/Laws/Fields.lean ====
section
/-! SUPPORT. Laws/Fields.lean: the fields, bits and operands of a pattern as arithmetic on its unsigned value, one lemma for
each accessor of Operands.lean. -/

namespace Sys2Proof.Machine

open Sys2Proof.Claim

@[simp] theorem Width.bias_w16 : Width.bias .w16 = 15 := rfl
@[simp] theorem Width.bias_w32 : Width.bias .w32 = 127 := rfl
@[simp] theorem Width.bias_w64 : Width.bias .w64 = 1023 := rfl

theorem Width.bits_eq (w : Width) : w.bits = 1 + w.expLen + w.mantLen := by cases w <;> rfl

theorem Width.bits_pos (w : Width) : 0 < w.bits := by cases w <;> decide

/-! ### Fields -/

theorem rawSign_toNat (w : Width) (p : BitVec w.bits) :
    (FloatValue.rawSign ⟨w, p⟩).toNat = signOf w p.toNat := by
  have hp := p.isLt
  have : p.toNat / 2 ^ (w.bits - 1) < 2 := by
    rw [Nat.div_lt_iff_lt_mul (by positivity)]
    cases w <;> exact hp
  simp only [FloatValue.rawSign, signOf, BitVec.extractLsb'_toNat, Nat.shiftRight_eq_div_pow]
  exact Nat.mod_eq_of_lt this

theorem storedExponent_eq (w : Width) (p : BitVec w.bits) :
    FloatValue.storedExponent ⟨w, p⟩ = expOf w p.toNat := by
  simp [FloatValue.storedExponent, FloatValue.rawExponent, expOf, Nat.shiftRight_eq_div_pow]

theorem storedMantissa_eq (w : Width) (p : BitVec w.bits) :
    FloatValue.storedMantissa ⟨w, p⟩ = fracOf w p.toNat := by
  simp [FloatValue.storedMantissa, FloatValue.rawMantissa, fracOf]

theorem magnitude_eq (w : Width) (p : BitVec w.bits) : FloatValue.magnitude ⟨w, p⟩ = magOf w p.toNat := by
  simp [FloatValue.magnitude, magOf]

/-- A pattern is its fields put together (R100). -/
theorem pattern_eq_fields (w : Width) (p : Nat) :
    p = signOf w p * 2 ^ (w.bits - 1) + expOf w p * 2 ^ w.mantLen + fracOf w p := by
  cases w <;> simp only [signOf, expOf, fracOf] <;> norm_num <;> omega

theorem signOf_lt_two (w : Width) (p : BitVec w.bits) : signOf w p.toNat < 2 := by
  rw [← rawSign_toNat]; exact (FloatValue.rawSign ⟨w, p⟩).isLt

theorem expOf_lt (w : Width) (p : Nat) : expOf w p < 2 ^ w.expLen := Nat.mod_lt _ (by positivity)

theorem fracOf_lt (w : Width) (p : Nat) : fracOf w p < 2 ^ w.mantLen := Nat.mod_lt _ (by positivity)

/-- The magnitude bits are the exponent above the mantissa. -/
theorem magOf_eq (w : Width) (p : Nat) : magOf w p = expOf w p * 2 ^ w.mantLen + fracOf w p := by
  cases w <;> simp only [magOf, expOf, fracOf] <;> norm_num <;> omega

/-- The pattern FROM_FIELDS builds, as a number (R180). -/
theorem joinFields_toNat (w : Width) (s : BitVec 1) (e : BitVec w.expLen) (f : BitVec w.mantLen) :
    (joinFields w s e f).toNat = s.toNat * 2 ^ (w.bits - 1) + e.toNat * 2 ^ w.mantLen + f.toNat := by
  have hs := s.isLt
  have he := e.isLt
  have hf := f.isLt
  rw [joinFields, BitVec.toNat_setWidth, BitVec.toNat_append, BitVec.toNat_append,
    ← Nat.shiftLeft_add_eq_or_of_lt he, ← Nat.shiftLeft_add_eq_or_of_lt hf, Nat.shiftLeft_eq, Nat.shiftLeft_eq]
  cases w <;> simp only [Width.bits, Width.expLen, Width.mantLen] at * <;> norm_num at * <;> omega

/-! ### Bits -/

theorem seqBit_eq (w : Width) (p : BitVec w.bits) (i : Nat) :
    FloatValue.seqBit ⟨w, p⟩ i = BitVec.ofBool (p.getLsbD (w.bits - 1 - i)) := by
  apply BitVec.eq_of_getLsbD_eq
  intro k hk
  obtain rfl : k = 0 := by omega
  simp [FloatValue.seqBit]

theorem setSeqBit_getLsbD (w : Width) (p : BitVec w.bits) (i : Nat) (v : BitVec 1) (k : Nat) (hk : k < w.bits) :
    (setSeqBit w p i v).getLsbD k = if k = w.bits - 1 - i then v == 1 else p.getLsbD k := by
  have hv : v = 0 ∨ v = 1 := by
    have := v.isLt
    rcases (by omega : v.toNat = 0 ∨ v.toNat = 1) with h | h
    · exact .inl (BitVec.eq_of_toNat_eq h)
    · exact .inr (BitVec.eq_of_toNat_eq h)
  simp only [setSeqBit, BitVec.getLsbD_or, BitVec.getLsbD_and, BitVec.getLsbD_not, BitVec.getLsbD_twoPow,
    BitVec.getLsbD_shiftLeft, BitVec.getLsbD_setWidth, hk]
  by_cases h : k = w.bits - 1 - i
  · subst h
    have := Width.bits_pos w
    rcases hv with rfl | rfl
    · simp [hk]
    · simp [hk, this]
  · have h' : w.bits - 1 - i ≠ k := Ne.symm h
    have hb : v.getLsbD (k - (w.bits - 1 - i)) = false ∨ k < w.bits - 1 - i := by
      rcases Nat.lt_or_ge k (w.bits - 1 - i) with hlt | hge
      · exact .inr hlt
      · exact .inl (BitVec.getLsbD_of_ge _ _ (by omega))
    rcases hb with hb | hb <;> simp [h, h', hb]

theorem flipSeqBit_getLsbD (w : Width) (p : BitVec w.bits) (i : Nat) (k : Nat) (hk : k < w.bits) :
    (flipSeqBit w p i).getLsbD k = if k = w.bits - 1 - i then !p.getLsbD k else p.getLsbD k := by
  simp only [flipSeqBit, BitVec.getLsbD_xor, BitVec.getLsbD_twoPow]
  by_cases h : k = w.bits - 1 - i
  · subst h; simp [hk]
  · simp [h, Ne.symm h]

/-- The no-op case of BIT_SET is the set case with the bit unchanged (R183). -/
theorem withBitSet_eq (w : Width) (p : BitVec w.bits) (i : Nat) (v : BitVec 1) :
    FloatValue.withBitSet ⟨w, p⟩ i v = ⟨w, setSeqBit w p i v⟩ := by
  unfold FloatValue.withBitSet
  split
  · next h =>
    congr 1
    apply BitVec.eq_of_getLsbD_eq
    intro k hk
    rw [setSeqBit_getLsbD w p i v k hk, ← h, seqBit_eq]
    split
    · next e => subst e; cases p.getLsbD (w.bits - 1 - i) <;> rfl
    · rfl
  · rfl

theorem withBitFlipped_eq (w : Width) (p : BitVec w.bits) (i : Nat) :
    FloatValue.withBitFlipped ⟨w, p⟩ i = ⟨w, flipSeqBit w p i⟩ := rfl

theorem abs_eq (w : Width) (p : BitVec w.bits) : FloatValue.abs ⟨w, p⟩ = ⟨w, setSeqBit w p 0 0⟩ := rfl

/-- Clearing the sign bit leaves the magnitude bits (R221). -/
theorem setSeqBit_sign_toNat (w : Width) (p : BitVec w.bits) : (setSeqBit w p 0 0).toNat = magOf w p.toNat := by
  apply Nat.eq_of_testBit_eq
  intro k
  rw [magOf, Nat.testBit_mod_two_pow, ← BitVec.getLsbD, ← BitVec.getLsbD]
  by_cases hk : k < w.bits
  · rw [setSeqBit_getLsbD w p 0 0 k hk]
    split
    · next h => subst h; simp
    · next h => simp [(by omega : k < w.bits - 1)]
  · rw [BitVec.getLsbD_of_ge _ _ (by omega), BitVec.getLsbD_of_ge _ _ (by omega)]
    simp

/-! ### Operands -/

theorem patternOperand_eq (w : Width) (p : Port) : patternOperand w p = ⟨w, p.setWidth w.bits⟩ := rfl

theorem setWidth_port_toNat (w : Width) (p : Port) : (p.setWidth w.bits).toNat = p.toNat % 2 ^ w.bits :=
  BitVec.toNat_setWidth ..

end Sys2Proof.Machine
end

