-- ==== Sys2Proof/Laws/Bytes.lean ====
section
/-! SUPPORT. Laws/Bytes.lean: what byte lanes, byte permutation and joining are as numbers to the base 256 (R42, R44, R101,
R111). -/

namespace Sys2Proof.Machine
open Sys2Proof.Claim

/-- Bytes joined, the last the least significant digit to the base 256, wrapped to the width. -/
theorem joinBytes_toNat (w : Width) (bs : List Byte) :
    (joinBytes w bs).toNat = Nat.ofDigits 256 (bs.reverse.map (·.toNat)) % 2 ^ w.bits := by
  induction bs using List.reverseRecOn with
  | nil => simp [joinBytes]
  | append_singleton bs b ih =>
    have hb : b.toNat < 2 ^ 8 := b.isLt
    have hw : 2 ^ 8 ∣ 2 ^ w.bits := pow_dvd_pow _ (by cases w <;> decide)
    have step : joinBytes w (bs ++ [b]) = joinBytes w bs <<< 8 ||| b.setWidth w.bits := by simp [joinBytes]
    have small : b.toNat % 2 ^ w.bits = b.toNat := Nat.mod_eq_of_lt (by cases w <;> simp [Width.bits] <;> omega)
    rw [step, BitVec.toNat_or, BitVec.toNat_shiftLeft, BitVec.toNat_setWidth, small, ih, Nat.shiftLeft_eq]
    simp only [List.reverse_append, List.reverse_singleton, List.singleton_append, List.map_cons, Nat.ofDigits_cons]
    generalize Nat.ofDigits 256 _ = n
    have high : n % 2 ^ w.bits * 2 ^ 8 % 2 ^ w.bits = (n % 2 ^ (w.bits - 8)) <<< 8 := by
      rw [Nat.shiftLeft_eq]
      cases w <;> simp only [Width.bits] <;> omega
    rw [high, ← Nat.shiftLeft_add_eq_or_of_lt hb, Nat.shiftLeft_eq]
    cases w <;> simp only [Width.bits] <;> omega

/-- The digits of a number to the base 256, as a list counted from the least significant, are the number. -/
theorem ofDigits_range (n : Nat) (f : Nat → Nat) :
    Nat.ofDigits 256 ((List.range n).map f) = ((List.range n).map fun j => f j * 256 ^ j).sum := by
  induction n with
  | zero => simp
  | succ n ih =>
    simp only [List.range_succ, List.map_append, List.map_cons, List.map_nil, Nat.ofDigits_append, ih,
      List.length_map, List.length_range, Nat.ofDigits_singleton, List.sum_append, List.sum_cons, List.sum_nil]
    ring

theorem ofDigits_bytes (n p : Nat) : Nat.ofDigits 256 ((List.range n).map fun j => p / 256 ^ j % 256) = p % 256 ^ n := by
  induction n with
  | zero => simp [Nat.mod_one]
  | succ n ih =>
    simp only [List.range_succ, List.map_append, List.map_cons, List.map_nil, Nat.ofDigits_append, ih,
      List.length_map, List.length_range, Nat.ofDigits_singleton]
    rw [pow_succ, Nat.mod_mul]

theorem byteSwap_eq (n p : Nat) :
    byteSwap n p = Nat.ofDigits 256 ((List.range n).map fun j => p / 256 ^ (n - 1 - j) % 256) :=
  (ofDigits_range n fun j => p / 256 ^ (n - 1 - j) % 256).symm

theorem byteSwap_lt (n p : Nat) : byteSwap n p < 256 ^ n := by
  have := Nat.ofDigits_lt_base_pow_length (b := 256)
    (l := (List.range n).map fun j => p / 256 ^ (n - 1 - j) % 256) (by decide)
    (by simp only [List.mem_map]; rintro _ ⟨j, -, rfl⟩; exact Nat.mod_lt _ (by decide))
  simpa [byteSwap_eq] using this

theorem Width.pow_bits (w : Width) : 2 ^ w.bits = 256 ^ (w.bits / 8) := by cases w <;> rfl

/-- The bytes of a pattern as numbers (R44). -/
theorem patternBytes_toNat (w : Width) (q : BitVec w.bits) :
    (patternBytes w q).map (·.toNat) = (List.range (w.bits / 8)).map fun j => q.toNat / 256 ^ (w.bits / 8 - 1 - j) % 256 := by
  simp only [patternBytes, List.map_map]
  refine List.map_congr_left fun j hj => ?_
  have hj := List.mem_range.mp hj
  have e : w.bits - 8 - 8 * j = 8 * (w.bits / 8 - 1 - j) := by cases w <;> simp only [Width.bits] at hj ⊢ <;> omega
  simp [Nat.shiftRight_eq_div_pow, e, pow_mul]

/-- The byte lanes of a port as numbers (R42). -/
theorem byteLanes_toNat (n : Nat) (a : Port) :
    (byteLanes n a).map (·.toNat) = (List.range n).map fun j => a.toNat / 256 ^ j % 256 := by
  simp only [byteLanes, List.map_map]
  refine List.map_congr_left fun j _ => ?_
  simp [Nat.shiftRight_eq_div_pow, pow_mul]

/-- R101: LITTLE permutes whole bytes, the pattern's bytes in the other order. -/
theorem permute_little_toNat (w : Width) (q : BitVec w.bits) :
    (permute w q .little).toNat = byteSwap (w.bits / 8) q.toNat := by
  rw [permute, joinBytes_toNat, List.reverse_reverse, patternBytes_toNat, ← byteSwap_eq, Width.pow_bits]
  exact Nat.mod_eq_of_lt (byteSwap_lt ..)

/-- R111 under LITTLE: the buffer's bytes are the pattern's, the first the least significant. -/
theorem patternOfBuffer_little_toNat (w : Width) (a : Port) :
    (patternOfBuffer w .little (byteLanes (w.bits / 8) a)).toNat = a.toNat % 2 ^ w.bits := by
  rw [patternOfBuffer, joinBytes_toNat, List.reverse_reverse, byteLanes_toNat, ofDigits_bytes, ← Width.pow_bits, Nat.mod_mod]

/-- R111 under BIG: the first byte of the buffer is the most significant. -/
theorem patternOfBuffer_big_toNat (w : Width) (a : Port) :
    (patternOfBuffer w .big (byteLanes (w.bits / 8) a)).toNat = byteSwap (w.bits / 8) (a.toNat % 2 ^ w.bits) := by
  have back : ((List.range (w.bits / 8)).map fun j => a.toNat / 256 ^ j % 256).reverse =
      (List.range (w.bits / 8)).map fun j => a.toNat % 2 ^ w.bits / 256 ^ (w.bits / 8 - 1 - j) % 256 := by
    cases w <;> simp [Width.bits, List.range_succ] <;> omega
  rw [patternOfBuffer, joinBytes_toNat, List.map_reverse, byteLanes_toNat, back, ← byteSwap_eq, Width.pow_bits]
  exact Nat.mod_eq_of_lt (byteSwap_lt ..)

end Sys2Proof.Machine
end

