-- ==== Sys2Proof/Laws/Classifier.lean ====
section
/-! SUPPORT. Laws/Classifier.lean: each flag and derived value of the classifier as arithmetic on the pattern, and the three
output groups as a whole. -/

namespace Sys2Proof.Machine

open Sys2Proof.Claim

/-! ### Field predicates -/

theorem allExponentBitsZero_iff (w : Width) (p : BitVec w.bits) :
    FloatValue.allExponentBitsZero ⟨w, p⟩ = true ↔ expOf w p.toNat = 0 := by
  rw [← storedExponent_eq, FloatValue.allExponentBitsZero, beq_iff_eq, FloatValue.storedExponent]
  exact ⟨fun h => by rw [h]; rfl, fun h => BitVec.eq_of_toNat_eq h⟩

theorem allExponentBitsOne_iff (w : Width) (p : BitVec w.bits) :
    FloatValue.allExponentBitsOne ⟨w, p⟩ = true ↔ expOf w p.toNat = 2 ^ w.expLen - 1 := by
  rw [← storedExponent_eq, FloatValue.allExponentBitsOne, beq_iff_eq, FloatValue.storedExponent,
    ← BitVec.toNat_allOnes]
  exact ⟨fun h => by rw [h], fun h => BitVec.eq_of_toNat_eq h⟩

theorem mantissaAllZero_iff (w : Width) (p : BitVec w.bits) :
    FloatValue.mantissaAllZero ⟨w, p⟩ = true ↔ fracOf w p.toNat = 0 := by
  rw [← storedMantissa_eq, FloatValue.mantissaAllZero, beq_iff_eq, FloatValue.storedMantissa]
  exact ⟨fun h => by rw [h]; rfl, fun h => BitVec.eq_of_toNat_eq h⟩

theorem two_le_expMax (w : Width) : 31 ≤ 2 ^ w.expLen - 1 := by cases w <;> decide

/-! ### Categories -/

theorem isZero_eq (w : Width) (p : BitVec w.bits) :
    FloatValue.isZero ⟨w, p⟩ = decide (IsZero w p.toNat) := by
  rw [Bool.eq_iff_iff, FloatValue.isZero, Bool.and_eq_true, allExponentBitsZero_iff, mantissaAllZero_iff,
    decide_eq_true_iff]

theorem isSubnormal_eq (w : Width) (p : BitVec w.bits) :
    FloatValue.isSubnormal ⟨w, p⟩ = decide (IsSubnormal w p.toNat) := by
  rw [Bool.eq_iff_iff, FloatValue.isSubnormal, Bool.and_eq_true, allExponentBitsZero_iff, Bool.not_eq_true',
    ← Bool.not_eq_true, mantissaAllZero_iff, decide_eq_true_iff]

theorem isInfinite_eq (w : Width) (p : BitVec w.bits) :
    FloatValue.isInfinite ⟨w, p⟩ = decide (IsInfinite w p.toNat) := by
  rw [Bool.eq_iff_iff, FloatValue.isInfinite, Bool.and_eq_true, allExponentBitsOne_iff, mantissaAllZero_iff,
    decide_eq_true_iff]

theorem isNaN_eq (w : Width) (p : BitVec w.bits) :
    FloatValue.isNaN ⟨w, p⟩ = decide (IsNaN w p.toNat) := by
  rw [Bool.eq_iff_iff, FloatValue.isNaN, Bool.and_eq_true, allExponentBitsOne_iff, Bool.not_eq_true',
    ← Bool.not_eq_true, mantissaAllZero_iff, decide_eq_true_iff]

theorem isNormal_eq (w : Width) (p : BitVec w.bits) :
    FloatValue.isNormal ⟨w, p⟩ = decide (IsNormal w p.toNat) := by
  have h := expOf_lt w p.toNat
  have h' := two_le_expMax w
  rw [Bool.eq_iff_iff, FloatValue.isNormal, isZero_eq, isSubnormal_eq, isInfinite_eq, isNaN_eq]
  simp only [Bool.and_eq_true, Bool.not_eq_true', decide_eq_false_iff_not, decide_eq_true_eq]
  omega

theorem isFinite_eq (w : Width) (p : BitVec w.bits) :
    FloatValue.isFinite ⟨w, p⟩ = decide (IsFinite w p.toNat) := by
  have h := expOf_lt w p.toNat
  have h' := two_le_expMax w
  rw [Bool.eq_iff_iff, FloatValue.isFinite, isZero_eq, isSubnormal_eq, isNormal_eq]
  simp only [Bool.or_eq_true, decide_eq_true_eq]
  omega

/-- Every pattern is of one category. -/
theorem category_cases (w : Width) (p : Nat) :
    IsZero w p ∨ IsSubnormal w p ∨ IsNormal w p ∨ IsInfinite w p ∨ IsNaN w p := by
  have h := expOf_lt w p
  have h' := two_le_expMax w
  omega

theorem quietBit_eq (w : Width) (p : BitVec w.bits) :
    FloatValue.quietBit ⟨w, p⟩ = decide (2 ^ (w.mantLen - 1) ≤ fracOf w p.toNat) := by
  have hlt := fracOf_lt w p.toNat
  rw [← storedMantissa_eq] at hlt ⊢
  rw [FloatValue.quietBit, BitVec.getLsbD, Nat.testBit_eq_decide_div_mod_eq, ← FloatValue.storedMantissa, Bool.eq_iff_iff,
    decide_eq_true_iff, decide_eq_true_iff]
  generalize FloatValue.storedMantissa ⟨w, p⟩ = f at hlt
  cases w <;> simp only [Width.mantLen] at hlt ⊢ <;> norm_num at hlt ⊢ <;> omega

theorem isSignalingNaN_eq (w : Width) (p : BitVec w.bits) :
    FloatValue.isSignalingNaN ⟨w, p⟩ = decide (IsNaN w p.toNat ∧ fracOf w p.toNat < 2 ^ (w.mantLen - 1)) := by
  rw [FloatValue.isSignalingNaN, isNaN_eq, quietBit_eq, ← decide_not, ← Bool.decide_and]
  simp only [not_le]

theorem isQuietNaN_eq (w : Width) (p : BitVec w.bits) :
    FloatValue.isQuietNaN ⟨w, p⟩ = decide (IsNaN w p.toNat ∧ 2 ^ (w.mantLen - 1) ≤ fracOf w p.toNat) := by
  rw [FloatValue.isQuietNaN, isNaN_eq, quietBit_eq, ← Bool.decide_and]

theorem sign_eq (w : Width) (p : BitVec w.bits) :
    FloatValue.sign ⟨w, p⟩ = if signOf w p.toNat = 1 then .minus else .plus := by
  have : FloatValue.rawSign ⟨w, p⟩ = 1 ↔ signOf w p.toNat = 1 := by
    rw [← rawSign_toNat]
    exact ⟨fun h => by rw [h]; rfl, fun h => BitVec.eq_of_toNat_eq h⟩
  simp only [FloatValue.sign, this]

theorem isCanonical_eq (w : Width) (p : BitVec w.bits) :
    FloatValue.isCanonical ⟨w, p⟩ = decide (¬ (IsNaN w p.toNat ∧ 2 ^ (w.mantLen - 1) < fracOf w p.toNat)) := by
  have hlt := fracOf_lt w p.toNat
  have hb : ((FloatValue.rawMantissa ⟨w, p⟩).extractLsb' 0 (w.mantLen - 1) == 0) =
      decide (fracOf w p.toNat % 2 ^ (w.mantLen - 1) = 0) := by
    rw [← storedMantissa_eq, Bool.eq_iff_iff, beq_iff_eq, decide_eq_true_iff, FloatValue.storedMantissa]
    constructor
    · intro h
      have := congrArg BitVec.toNat h
      simpa using this
    · intro h
      apply BitVec.eq_of_toNat_eq
      simpa using h
  rw [FloatValue.isCanonical, hb, isNaN_eq, isSignalingNaN_eq, Bool.eq_iff_iff]
  simp only [Bool.or_eq_true, Bool.not_eq_true', decide_eq_false_iff_not, decide_eq_true_eq]
  have hk : 2 ^ w.mantLen = 2 * 2 ^ (w.mantLen - 1) := by cases w <;> rfl
  have hz : fracOf w p.toNat % 2 ^ (w.mantLen - 1) = 0 ↔
      fracOf w p.toNat = 0 ∨ fracOf w p.toNat = 2 ^ (w.mantLen - 1) := by
    have hpos : 0 < 2 ^ (w.mantLen - 1) := by positivity
    rw [hk] at hlt
    generalize 2 ^ (w.mantLen - 1) = k at *
    constructor
    · intro h
      obtain ⟨c, hc⟩ := Nat.dvd_of_mod_eq_zero h
      have : c < 2 := by
        by_contra hge
        have := Nat.mul_le_mul_left k (not_lt.mp hge)
        omega
      interval_cases c <;> omega
    · rintro (h | h) <;> simp [h]
  rw [hz]
  omega

/-! ### Exponent and mantissa value -/

theorem unbiasedExponent_eq (w : Width) (p : BitVec w.bits) :
    FloatValue.unbiasedExponent ⟨w, p⟩ =
      if IsNormal w p.toNat ∨ IsSubnormal w p.toNat then (expOf w p.toNat : ℤ) - (2 ^ (w.expLen - 1) - 1) + 1 else 0 := by
  have h := expOf_lt w p.toNat
  have h' := two_le_expMax w
  have hbias : ((w.bias : Nat) : ℤ) = 2 ^ (w.expLen - 1) - 1 := by cases w <;> rfl
  rw [FloatValue.unbiasedExponent, isZero_eq, isInfinite_eq, isNaN_eq, storedExponent_eq, ← hbias]
  simp only [Bool.or_eq_true, decide_eq_true_eq]
  split <;> split <;> first | rfl | omega

theorem unbiasedExponent_range (w : Width) (p : BitVec w.bits) :
    -1022 ≤ FloatValue.unbiasedExponent ⟨w, p⟩ ∧ FloatValue.unbiasedExponent ⟨w, p⟩ ≤ 1024 := by
  rw [unbiasedExponent_eq]
  have h := expOf_lt w p.toNat
  split
  · next hn =>
    have hb : w.expLen ≤ 11 ∧ 2 ^ w.expLen = 2 * 2 ^ (w.expLen - 1) ∧ (2 : ℤ) ^ (w.expLen - 1) ≤ 1024 ∧
        ((2 ^ (w.expLen - 1) : Nat) : ℤ) = 2 ^ (w.expLen - 1) := by cases w <;> decide
    omega
  · omega

/-- RESP.UEXP read as two's complement is the unbiased exponent (R74). -/
theorem unbiasedExponentCode_toInt (w : Width) (p : BitVec w.bits) :
    (FloatValue.unbiasedExponentCode ⟨w, p⟩).toInt = FloatValue.unbiasedExponent ⟨w, p⟩ := by
  have h := unbiasedExponent_range w p
  rw [FloatValue.unbiasedExponentCode, BitVec.toInt_ofInt, Int.bmod_eq_of_le] <;> omega

theorem mantissaValue_eq (w : Width) (p : BitVec w.bits) :
    FloatValue.mantissaValue ⟨w, p⟩ =
      if IsNormal w p.toNat then .finite (2 ^ w.mantLen + fracOf w p.toNat) (w.mantLen + 1)
      else if IsSubnormal w p.toNat then .finite (fracOf w p.toNat) w.mantLen
      else if IsZero w p.toNat then .finite 0 w.mantLen
      else if IsInfinite w p.toNat then .plusInf
      else .nan := by
  simp only [FloatValue.mantissaValue, isNormal_eq, isSubnormal_eq, isZero_eq, isInfinite_eq, storedMantissa_eq,
    decide_eq_true_eq]

/-! ### Output groups -/

/-- RecordOut is the record of the pattern (R71). -/
theorem recordOut_spec (w : Width) (p : BitVec w.bits) : RecordSpec w p.toNat (recordOut ⟨w, p⟩) := by
  have hp := p.isLt
  have he := expOf_lt w p.toNat
  have hf := fracOf_lt w p.toNat
  have hm := two_le_expMax w
  have hE : (FloatValue.rawExponent ⟨w, p⟩).toNat = expOf w p.toNat := storedExponent_eq w p
  have hF : (FloatValue.rawMantissa ⟨w, p⟩).toNat = fracOf w p.toNat := storedMantissa_eq w p
  have hbits : w.bits ≤ 64 := by cases w <;> decide
  have hexp : w.expLen ≤ 11 := by cases w <;> decide
  have hmant : w.mantLen ≤ 52 := by cases w <;> decide
  have hp2 : p.toNat < 2 ^ 64 := lt_of_lt_of_le hp (Nat.pow_le_pow_right (by omega) hbits)
  have he2 : expOf w p.toNat < 2 ^ 11 := lt_of_lt_of_le he (Nat.pow_le_pow_right (by omega) hexp)
  have hf2 : fracOf w p.toNat < 2 ^ 52 := lt_of_lt_of_le hf (Nat.pow_le_pow_right (by omega) hmant)
  have hmp : 2 ^ w.mantLen ≤ 2 ^ 52 := Nat.pow_le_pow_right (by omega) hmant
  refine
    { err := rfl, einfo := rfl, bool := rfl, fmt := rfl
      bits := ?_, sign := rawSign_toNat w p, exp := ?_, mant := ?_, bias := by cases w <;> rfl
      isZero := ?_, isSubnormal := ?_, isNormal := ?_, isInfinite := ?_, isNaN := ?_, isSignalingNaN := ?_
      isQuietNaN := ?_, isFinite := ?_, isCanonical := ?_, minus := ?_, uexp := ?_, mkind := ?_, mnum := ?_, mscale := ?_ }
  · simpa [recordOut] using Nat.mod_eq_of_lt hp2
  · simpa [recordOut, hE] using Nat.mod_eq_of_lt he2
  · simpa [recordOut, hF] using Nat.mod_eq_of_lt hf2
  · exact (BitVec.getLsbD_ofBoolListLE ..).trans (isZero_eq w p)
  · exact (BitVec.getLsbD_ofBoolListLE ..).trans (isSubnormal_eq w p)
  · exact (BitVec.getLsbD_ofBoolListLE ..).trans (isNormal_eq w p)
  · exact (BitVec.getLsbD_ofBoolListLE ..).trans (isInfinite_eq w p)
  · exact (BitVec.getLsbD_ofBoolListLE ..).trans (isNaN_eq w p)
  · exact (BitVec.getLsbD_ofBoolListLE ..).trans (isSignalingNaN_eq w p)
  · exact (BitVec.getLsbD_ofBoolListLE ..).trans (isQuietNaN_eq w p)
  · exact (BitVec.getLsbD_ofBoolListLE ..).trans (isFinite_eq w p)
  · exact (BitVec.getLsbD_ofBoolListLE ..).trans (isCanonical_eq w p)
  · refine (BitVec.getLsbD_ofBoolListLE ..).trans ?_
    simp only [List.getD_cons_succ, List.getD_cons_zero, sign_eq]
    split <;> simp [*]
  · exact (unbiasedExponentCode_toInt w p).trans (unbiasedExponent_eq w p)
  all_goals
    simp only [recordOut, mantissaValue_eq]
    rcases category_cases w p.toNat with h | h | h | h | h
    all_goals
      simp only [IsZero, IsSubnormal, IsNormal, IsInfinite, IsNaN, IsFinite] at h ⊢
      repeat' split
      all_goals
        first
        | omega
        | rfl
        | (simp only [MantissaValue.numOut, BitVec.toNat_ofNat]; apply Nat.mod_eq_of_lt; omega)
        | (cases w <;> rfl)

/-- TupleOut is the field tuple of the pattern (R71, R181). -/
theorem tupleOut_spec (w : Width) (p : BitVec w.bits) : TupleSpec w p.toNat (tupleOut ⟨w, p⟩) := by
  have h := recordOut_spec w p
  exact ⟨h.sign, h.exp, h.mant, rfl⟩

end Sys2Proof.Machine
end

