-- ==== Sys2Proof/Laws/Decode.lean ====
section
/-! SUPPORT. Laws/Decode.lean: codes and fields, both ways. -/

namespace Sys2Proof

@[simp] theorem formatCodeOf_bits (f : FormatCode) : formatCodeOf (formatCodeBits f) = f := by cases f <;> rfl
@[simp] theorem formatCodeBits_of (b : BitVec 2) : formatCodeBits (formatCodeOf b) = b := by
  revert b; decide
@[simp] theorem orderCodeOf_bits (o : OrderCode) : orderCodeOf (orderCodeBits o) = o := by cases o <;> rfl
@[simp] theorem orderCodeBits_of (b : BitVec 3) : orderCodeBits (orderCodeOf b) = b := by
  revert b; decide

/-! ### The fields of a word that is put together from fields (R61) -/

variable (bv : BitVec 1) (ord : BitVec 3) (fb fa : BitVec 2) (op : BitVec 4)

/-- `CMD = OP + 16·FA + 64·FB + 256·ORD + 2048·BV` (R76). -/
theorem commandWord_toNat : (commandWord bv ord fb fa op).toNat =
    op.toNat + 16 * fa.toNat + 64 * fb.toNat + 256 * ord.toNat + 2048 * bv.toNat := by
  have h0 := bv.isLt
  have h1 := ord.isLt
  have h2 := fb.isLt
  have h3 := fa.isLt
  have h4 := op.isLt
  simp only [commandWord, BitVec.toNat_append]
  rw [← Nat.shiftLeft_add_eq_or_of_lt h0, ← Nat.shiftLeft_add_eq_or_of_lt h1, ← Nat.shiftLeft_add_eq_or_of_lt h2,
    ← Nat.shiftLeft_add_eq_or_of_lt h3, ← Nat.shiftLeft_add_eq_or_of_lt h4]
  simp only [Nat.shiftLeft_eq, BitVec.toNat_ofNat]
  omega

variable (w : CmdWord)

theorem fieldOp_toNat : (fieldOp w).toNat = w.toNat % 16 := by simp [fieldOp]
theorem fieldFa_toNat : (fieldFa w).toNat = w.toNat / 16 % 4 := by simp [fieldFa, Nat.shiftRight_eq_div_pow]
theorem fieldFb_toNat : (fieldFb w).toNat = w.toNat / 64 % 4 := by simp [fieldFb, Nat.shiftRight_eq_div_pow]
theorem fieldOrd_toNat : (fieldOrd w).toNat = w.toNat / 256 % 8 := by simp [fieldOrd, Nat.shiftRight_eq_div_pow]
theorem fieldBv_toNat : (fieldBv w).toNat = w.toNat / 2048 % 2 := by
  simp only [fieldBv, BitVec.extractLsb'_toNat, Nat.shiftRight_eq_div_pow]

@[simp] theorem fieldOp_commandWord : fieldOp (commandWord bv ord fb fa op) = op := by
  apply BitVec.eq_of_toNat_eq; rw [fieldOp_toNat, commandWord_toNat]; omega

@[simp] theorem fieldFa_commandWord : fieldFa (commandWord bv ord fb fa op) = fa := by
  apply BitVec.eq_of_toNat_eq; rw [fieldFa_toNat, commandWord_toNat]; omega

@[simp] theorem fieldFb_commandWord : fieldFb (commandWord bv ord fb fa op) = fb := by
  apply BitVec.eq_of_toNat_eq; rw [fieldFb_toNat, commandWord_toNat]; omega

@[simp] theorem fieldOrd_commandWord : fieldOrd (commandWord bv ord fb fa op) = ord := by
  apply BitVec.eq_of_toNat_eq; rw [fieldOrd_toNat, commandWord_toNat]; omega

@[simp] theorem fieldBv_commandWord : fieldBv (commandWord bv ord fb fa op) = bv := by
  apply BitVec.eq_of_toNat_eq; rw [fieldBv_toNat, commandWord_toNat]; omega

/-- The decoder's opcode is the word's OP field (R65). -/
theorem decode_opcode : (decode w).opcode = fieldOp w := by
  have h' : w.extractLsb' 0 2 = (fieldOp w).extractLsb' 0 2 := by
    apply BitVec.eq_of_toNat_eq
    simp [fieldOp]
  simp only [decode, h']
  generalize formatCodeOf (fieldFa w) = a
  generalize formatCodeOf (fieldFb w) = b
  generalize orderCodeOf (fieldOrd w) = c
  generalize fieldBv w = v
  generalize fieldOp w = o
  have : o = BitVec.ofNat 4 o.toNat := by simp
  have hlt : o.toNat < 16 := o.isLt
  generalize o.toNat = n at *
  subst this
  interval_cases n <;> rfl

end Sys2Proof
end

