-- ==== Sys2Proof/Laws/State.lean ====
section
/-! SUPPORT. Laws/State.lean: what each update of State leaves in each field. -/

namespace Sys2Proof.Machine

@[simp] theorem State.deliver_current (s : State) (r : Response) : (s.deliver r).current = s.current := rfl
@[simp] theorem State.deliver_pending (s : State) (r : Response) : (s.deliver r).pending = s.pending := rfl
@[simp] theorem State.deliver_responses (s : State) (r : Response) :
    (s.deliver r).responses = s.responses ++ [r] := rfl

@[simp] theorem State.accept_current (s : State) (c : Command) (rest : List Command) :
    (s.accept c rest).current = c := rfl
@[simp] theorem State.accept_pending (s : State) (c : Command) (rest : List Command) :
    (s.accept c rest).pending = rest := rfl
@[simp] theorem State.accept_responses (s : State) (c : Command) (rest : List Command) :
    (s.accept c rest).responses = s.responses := rfl

@[simp] theorem State.assertReset_current (s : State) : s.assertReset.current = s.current := rfl
@[simp] theorem State.assertReset_pending (s : State) : s.assertReset.pending = [] := rfl
@[simp] theorem State.assertReset_responses (s : State) : s.assertReset.responses = s.responses := rfl

@[simp] theorem State.reset_pending : State.reset.pending = [] := rfl
@[simp] theorem State.reset_responses : State.reset.responses = [] := rfl

@[simp] theorem State.withFetchWord_current (s : State) (nbits w : Nat) :
    (s.withFetchWord nbits w).current = s.current := by
  unfold State.withFetchWord; cases s.pending <;> rfl
@[simp] theorem State.withFetchWord_responses (s : State) (nbits w : Nat) :
    (s.withFetchWord nbits w).responses = s.responses := by
  unfold State.withFetchWord; cases s.pending <;> rfl

/-- After `withFetchWord` the next command to be answered holds the word. -/
theorem State.withFetchWord_pending (s : State) (nbits w : Nat) :
    ∃ c rest, (s.withFetchWord nbits w).pending = c :: rest ∧ c.cmd = BitVec.ofNat 16 (w % 2 ^ nbits) := by
  unfold State.withFetchWord
  cases s.pending with
  | nil => exact ⟨_, _, rfl, rfl⟩
  | cons c rest => exact ⟨_, _, rfl, rfl⟩

end Sys2Proof.Machine
end

