-- ==== Sys2Proof/Laws/Exec.lean ====
section
/-! SUPPORT. Laws/Exec.lean: everything `complete`, `exec` and `step` can do, said once. -/

namespace Sys2Proof.Machine

@[simp] theorem responseOf_ok (r : Response) : responseOf (.ok r) = r := rfl
@[simp] theorem responseOf_error (e : CmdError) : responseOf (.error e) = raiseError e := rfl

/-- A command completes with one response more and nothing else changed. -/
theorem complete_eq_next (o : Except CmdError Response) (s : State) :
    complete o s = .next { s with responses := s.responses ++ [responseOf o] } := rfl

@[simp] theorem lastResponse_complete (o : Except CmdError Response) (s : State) :
    lastResponse (complete o s) = some (responseOf o) := by
  simp [lastResponse, complete]

/-- A meaning completes with the outcome of its command on the sampled inputs. -/
theorem exec_eq_complete (i : Instr) (s : State) : exec i s = complete (outcomeOf i s.current) s := by
  cases i <;> rfl

/-- A step with a command pending answers it with the combinational function's response. -/
theorem step_of_pending {s : State} {c : Command} {rest : List Command} (h : s.pending = c :: rest) :
    step s = .next { current := c, pending := rest, responses := s.responses ++ [respond c] } := by
  simp only [step, h, exec_eq_complete]
  rfl

/-- A step with nothing pending changes nothing. -/
theorem step_of_idle {s : State} (h : s.pending = []) : step s = .next s := by
  simp [step, h]

/-- The errors of a raised response (R260). -/
@[simp] theorem raiseError_err (e : CmdError) : (raiseError e).err = e.code := rfl
@[simp] theorem raiseError_einfo (e : CmdError) : (raiseError e).einfo = e.detail := rfl

theorem CmdError.code_ne_zero (e : CmdError) : e.code ≠ 0 := by
  cases e <;> simp [CmdError.code]

@[simp] theorem usedFormat_formatCode (w : Width) : usedFormat w.formatCode = .ok w := by
  cases w <;> rfl

/-! ### The checks of a command in sequence: one that passes hands on its value, one that fails ends it (R9, R264) -/

@[simp] theorem ok_bind {α β : Type} (a : α) (f : α → Except CmdError β) : (Except.ok a >>= f) = f a := rfl
@[simp] theorem error_bind {α β : Type} (e : CmdError) (f : α → Except CmdError β) :
    (Except.error e >>= f) = Except.error e := rfl
@[simp] theorem pure_eq {α : Type} (a : α) : (pure a : Except CmdError α) = .ok a := rfl

theorem raiseIf_of {bad : Prop} [Decidable bad] (h : bad) (e : CmdError) : raiseIf (decide bad) e = .error e := by
  simp [raiseIf, h]

theorem raiseIf_of_not {bad : Prop} [Decidable bad] (h : ¬ bad) (e : CmdError) : raiseIf (decide bad) e = .ok () := by
  simp [raiseIf, h]

/-- An index below W is used as it is (R182). -/
theorem usedIndex_of_lt {w : Width} {c : Command} (h : c.aux.toNat < w.bits) : usedIndex w c = .ok c.aux.toNat := by
  rw [usedIndex, if_neg (by omega)]

/-- An index of W or more raises IndexError (R182 to R184). -/
theorem usedIndex_of_le {w : Width} {c : Command} (h : w.bits ≤ c.aux.toNat) : usedIndex w c = .error .indexError := by
  rw [usedIndex, if_pos h]

/-- `bitLength(n) ≤ k` says that n fits in k bits (R8). -/
theorem bitLength_le_iff (n k : Nat) : bitLength n ≤ k ↔ n < 2 ^ k := by
  unfold bitLength
  split
  · subst_vars; simp
  · rw [Nat.succ_le_iff, Nat.log2_lt ‹_›]

/-- A format field gives its width or ReservedEncoding. -/
theorem usedFormat_cases (f : FormatCode) :
    (∃ w, f = Width.formatCode w ∧ usedFormat f = .ok w) ∨
      (f = .reserved ∧ usedFormat f = .error .reservedEncoding) := by
  cases f
  · exact .inl ⟨.w16, rfl, rfl⟩
  · exact .inl ⟨.w32, rfl, rfl⟩
  · exact .inl ⟨.w64, rfl, rfl⟩
  · exact .inr ⟨rfl, rfl⟩

/-- A byte-order field gives an order or ReservedEncoding. -/
theorem usedOrder_cases (o : OrderCode) :
    (o.defined = true ∧ ∃ b, usedOrder o = .ok b) ∨
      (o.defined = false ∧ usedOrder o = .error .reservedEncoding) := by
  cases o <;> simp [OrderCode.defined, usedOrder]

end Sys2Proof.Machine
end

