-- ==== Sys2Proof/Laws/Order.lean ====
section
/-! SUPPORT. Laws/Order.lean: the comparison of scaled numbers is the comparison of the rationals they are. -/

namespace Sys2Proof.Machine

/-- A scaled number, brought to a smaller scale, is the same rational. -/
theorem Scaled.numAt_toRat (a : Scaled) (k : Int) (h : k ≤ a.exp) : ((a.numAt k : Int) : ℚ) * 2 ^ k = a.toRat := by
  have : a.exp = (a.exp - k).toNat + k := by omega
  rw [Scaled.numAt, Scaled.toRat]
  conv_rhs => rw [this, zpow_add₀ (by norm_num), zpow_natCast]
  push_cast
  ring

/-- R222, R223: "ordinary numeric comparison". -/
theorem Scaled.lt_iff (a b : Scaled) : a.lt b = true ↔ a.toRat < b.toRat := by
  have hpos : (0 : ℚ) < 2 ^ min a.exp b.exp := by positivity
  rw [Scaled.lt, decide_eq_true_iff, ← a.numAt_toRat _ (min_le_left ..), ← b.numAt_toRat _ (min_le_right ..),
    mul_lt_mul_iff_left₀ hpos, Int.cast_lt]

theorem Scaled.lt_eq_false_iff (a b : Scaled) : a.lt b = false ↔ b.toRat ≤ a.toRat := by
  rw [← Bool.not_eq_true, Scaled.lt_iff, not_lt]

/-- The operands of a comparison, or the error it raises: both formats first, then that they agree (R230, R264). -/
theorem comparedOperands_same (w : Width) (c : Command) :
    comparedOperands w.formatCode w.formatCode c = .ok (patternOperand w c.opa, patternOperand w c.opb) := by
  cases w <;> rfl

theorem comparedOperands_differ {w v : Width} (h : w ≠ v) (c : Command) :
    comparedOperands w.formatCode v.formatCode c = .error .typeMismatch := by
  cases w <;> cases v <;> first | rfl | exact absurd rfl h

end Sys2Proof.Machine
end

