-- ==== Sys2Proof/Laws/PerInstr.lean ====
section
/-! SUPPORT. Laws/PerInstr.lean: the family EncodedFields, one lemma for each constructor of Instr: the encoded word holds the
command's opcode in OP and 0 in the reserved bits CMD[15:12] (R61: "software writes 0"). -/

namespace Sys2Proof.Laws.EncodedFields

/-- The encoded word has the command's opcode and zero reserved bits. -/
def Statement (i : Sys2Proof.Instr) : Prop :=
  Sys2Proof.fieldOp (Sys2Proof.encode i) = i.opcode ∧ (Sys2Proof.encode i).extractLsb' 12 4 = 0#4

/-- The reserved bits of a word put together from fields are 0 (R61). -/
theorem reserved_commandWord (bv : BitVec 1) (ord : BitVec 3) (fb fa : BitVec 2) (op : BitVec 4) :
    (Sys2Proof.commandWord bv ord fb fa op).extractLsb' 12 4 = 0#4 := by
  apply BitVec.eq_of_toNat_eq
  simp only [BitVec.extractLsb'_toNat, Sys2Proof.commandWord_toNat, Nat.shiftRight_eq_div_pow, BitVec.toNat_ofNat]
  omega

theorem decode (fa : Sys2Proof.FormatCode) : Statement (.decode fa) :=
  ⟨Sys2Proof.fieldOp_commandWord .., reserved_commandWord ..⟩

theorem fromNumeric (ord : Sys2Proof.OrderCode) : Statement (.fromNumeric ord) :=
  ⟨Sys2Proof.fieldOp_commandWord .., reserved_commandWord ..⟩

theorem fromBytes (fa : Sys2Proof.FormatCode) (ord : Sys2Proof.OrderCode) : Statement (.fromBytes fa ord) :=
  ⟨Sys2Proof.fieldOp_commandWord .., reserved_commandWord ..⟩

theorem fromFields (fa : Sys2Proof.FormatCode) : Statement (.fromFields fa) :=
  ⟨Sys2Proof.fieldOp_commandWord .., reserved_commandWord ..⟩

theorem toFields (fa : Sys2Proof.FormatCode) : Statement (.toFields fa) :=
  ⟨Sys2Proof.fieldOp_commandWord .., reserved_commandWord ..⟩

theorem bitAt (fa : Sys2Proof.FormatCode) : Statement (.bitAt fa) :=
  ⟨Sys2Proof.fieldOp_commandWord .., reserved_commandWord ..⟩

theorem bitSet (fa : Sys2Proof.FormatCode) (bv : BitVec 1) : Statement (.bitSet fa bv) :=
  ⟨Sys2Proof.fieldOp_commandWord .., reserved_commandWord ..⟩

theorem bitFlip (fa : Sys2Proof.FormatCode) : Statement (.bitFlip fa) :=
  ⟨Sys2Proof.fieldOp_commandWord .., reserved_commandWord ..⟩

theorem totalOrder (fa fb : Sys2Proof.FormatCode) : Statement (.totalOrder fa fb) :=
  ⟨Sys2Proof.fieldOp_commandWord .., reserved_commandWord ..⟩

theorem totalOrderMag (fa fb : Sys2Proof.FormatCode) : Statement (.totalOrderMag fa fb) :=
  ⟨Sys2Proof.fieldOp_commandWord .., reserved_commandWord ..⟩

theorem reservedOp1011 (low : BitVec 1) : Statement (.reservedOp1011 low) :=
  ⟨Sys2Proof.fieldOp_commandWord .., reserved_commandWord ..⟩

theorem reservedOp1215 (low : BitVec 2) : Statement (.reservedOp1215 low) :=
  ⟨Sys2Proof.fieldOp_commandWord .., reserved_commandWord ..⟩

end Sys2Proof.Laws.EncodedFields
end

