-- ==== Sys2Proof/Tests/Slice0.lean ====
section
/-! SUPPORT. Tests/Slice0.lean: the well-formedness smoke tests, words written out from the spec's encoding, one-step tests whose
expected responses are the vectors of spec/95_test_vectors.md (the id stands in the comment), and a witness for the hypotheses of
each statement that has some. -/

namespace Sys2Proof.Tests

open Sys2Proof Sys2Proof.Machine Sys2Proof.Claim

/-- The state after reset with these commands presented. -/
def presented (cs : List Command) : State := { State.reset with pending := cs }

/-- The response to one command presented after reset. -/
def reply (c : Command) : Option Response := lastResponse (step (presented [c]))

/-- A sample on the ports, in a state with nothing presented. -/
def onPorts (a b c : Port) (x : BitVec 8) : State :=
  { State.reset with current := { cmd := 0, opa := a, opb := b, opc := c, aux := x } }

/-! ### WellFormed -/

theorem test_reserved_format_is_ill_formed : (Instr.totalOrder .f16 .reserved).wellFormed = false := by decide

theorem test_reserved_order_is_ill_formed : (Instr.fromBytes .f16 .reserved101).wellFormed = false := by decide

theorem test_reserved_opcode_is_ill_formed :
    (Instr.reservedOp1011 0).wellFormed = false ∧ (Instr.reservedOp1215 3).wellFormed = false := by decide

theorem test_defined_command_is_well_formed : (Instr.bitSet .f64 1).wellFormed = true := by decide

/-! ### Words (R61, R63 to R65), bit by bit: 15-12 ignored, BV, ORD, FB, FA, OP -/

theorem test_word_decode : decode 0b0000_0_000_00_01_0000#16 = .decode .f32 := by decide
theorem test_word_fromNumeric : decode 0b0000_0_100_00_00_0001#16 = .fromNumeric .network := by decide
theorem test_word_fromNumeric_reserved : decode 0b0000_0_101_00_00_0001#16 = .fromNumeric .reserved101 := by decide
theorem test_word_fromBytes : decode 0b0000_0_010_00_10_0010#16 = .fromBytes .f64 .littleEndian := by decide
theorem test_word_fromFields : decode 0b0000_0_000_00_01_0011#16 = .fromFields .f32 := by decide
theorem test_word_toFields : decode 0b0000_0_000_00_10_0100#16 = .toFields .f64 := by decide
theorem test_word_bitAt : decode 0b0000_0_000_10_01_0101#16 = .bitAt .f32 := by decide
theorem test_word_bitSet : decode 0b0000_1_000_00_00_0110#16 = .bitSet .f16 1 := by decide
theorem test_word_bitFlip : decode 0b0000_0_000_00_11_0111#16 = .bitFlip .reserved := by decide
theorem test_word_totalOrder : decode 0b0000_0_000_01_00_1000#16 = .totalOrder .f16 .f32 := by decide
theorem test_word_totalOrderMag : decode 0b0000_0_000_10_00_1001#16 = .totalOrderMag .f16 .f64 := by decide
theorem test_word_reservedOp1011 : decode 0b0000_0_000_00_11_1010#16 = .reservedOp1011 0 := by decide
theorem test_word_reservedOp1215 : decode 0b0000_0_000_00_00_1101#16 = .reservedOp1215 1 := by decide

/-- R61: the word is 16 bits, and a longer string is rejected by name. -/
theorem test_long_string_is_rejected :
    decodeBits 17 0 = .error .longerThanCommand ∧ decodeBits 16 0x10000 = .error .bitsAboveLength := by decide

theorem test_fetch_word_runs :
    decodeTableWord 16 0x0816 = some (.bitSet .f32 1) ∧
    (State.reset.withFetchWord 16 0x0816).pending = [⟨0x0816, 0, 0, 0, 0⟩] := by decide

/-- The format table of R22. -/
theorem test_format_table :
    (Width.bits .w16, Width.expLen .w16, Width.mantLen .w16, Width.bias .w16) = (16, 5, 10, 15) ∧
    (Width.bits .w32, Width.expLen .w32, Width.mantLen .w32, Width.bias .w32) = (32, 8, 23, 127) ∧
    (Width.bits .w64, Width.expLen .w64, Width.mantLen .w64, Width.bias .w64) = (64, 11, 52, 1023) := by decide

/-! ### One step -/

/-- V-D1. -/
theorem test_decode_one : reply ⟨0x0000, 0x3C00, 0, 0, 0⟩ = some
    { Response.zero with
      bits := 0x3C00, exp := 15, cls := 0x184, bias := 15, uexp := 0x001, mnum := 0x400, mscale := 11 } := by decide

/-- L1.4.4. -/
theorem test_decode_signaling_nan : reply ⟨0x0020, 0xFFF4000000000000, 0, 0, 0⟩ = some
    { Response.zero with
      fmt := 2, bits := 0xFFF4000000000000, sign := 1, exp := 2047, mant := 0x4000000000000, cls := 0x330, bias := 1023,
      mkind := 2 } := by decide

/-- L1.9.2: the bytes are reversed before the pattern is classified. -/
theorem test_fromNumeric_little : reply ⟨0x0201, 0x8000000000000000, 0, 0, 64⟩ = some
    { Response.zero with
      fmt := 2, bits := 0x80, mant := 0x80, cls := 0x182, bias := 1023, uexp := 0xC02, mnum := 0x80,
      mscale := 52 } := by decide

/-- V-N5, V-N6: 31 snaps to binary16 and 62 to binary32, whatever the narrowing. -/
theorem test_fromNumeric_snaps :
    (reply ⟨0x0301, 0x3FF0000000000000, 0, 0, 31⟩).map (·.fmt) = some 0 ∧
    (reply ⟨0x0301, 0x3FF0000000000000, 0, 0, 62⟩).map (·.fmt) = some 1 := by
  constructor <;> rfl

/-- V-D8: the buffer is 3F 80 00 00. -/
theorem test_fromBytes_big : reply ⟨0x0312, 0x803F, 0, 0, 4⟩ = some
    { Response.zero with
      fmt := 1, bits := 0x3F800000, exp := 127, cls := 0x184, bias := 127, uexp := 0x001, mnum := 0x800000,
      mscale := 24 } := by decide

/-- P4.1. -/
theorem test_fromBytes_wrong_length : reply ⟨0x0312, 0x803F, 0, 0, 3⟩ = some { Response.zero with err := 2 } := by decide

/-- L1.1.1. -/
theorem test_fromFields : reply ⟨0x0013, 1, 0x80, 0x490FDB, 0⟩ = some
    { Response.zero with
      fmt := 1, bits := 0xC0490FDB, sign := 1, exp := 128, mant := 0x490FDB, cls := 0x384, bias := 127, uexp := 0x002,
      mnum := 0xC90FDB, mscale := 24 } := by decide

/-- P4.3, P4.4, P4.5: the three checks, in their order. -/
theorem test_fromFields_errors :
    reply ⟨0x0003, 2, 0x20, 0x400, 0⟩ = some { Response.zero with err := 4 } ∧
    reply ⟨0x0003, 0, 0x20, 0x400, 0⟩ = some { Response.zero with err := 3 } ∧
    reply ⟨0x0003, 0, 0x1F, 0x400, 0⟩ = some { Response.zero with err := 3, einfo := 1 } := by decide

/-- L1.1.2. -/
theorem test_toFields : reply ⟨0x0014, 0xC0490FDB, 0, 0, 0⟩ = some
    { Response.zero with fmt := 1, sign := 1, exp := 128, mant := 0x490FDB } := by decide

/-- L1.6.1, P4.9. -/
theorem test_bitAt :
    reply ⟨0x0005, 0x7E01, 0, 0, 6⟩ = some { Response.zero with bool := 1 } ∧
    reply ⟨0x0005, 0x7FFF, 0, 0, 16⟩ = some { Response.zero with err := 6 } := by decide

/-- P3.2: an infinity becomes a signaling NaN. -/
theorem test_bitSet_reclassifies : reply ⟨0x0806, 0x7C00, 0, 0, 15⟩ = some
    { Response.zero with
      bits := 0x7C01, exp := 31, mant := 1, cls := 0x130, bias := 15, mkind := 2 } := by decide

/-- P2.2. -/
theorem test_bitFlip_sign : reply ⟨0x0017, 0x3F800000, 0, 0, 0⟩ = some
    { Response.zero with
      fmt := 1, bits := 0xBF800000, sign := 1, exp := 127, cls := 0x384, bias := 127, uexp := 0x001, mnum := 0x800000,
      mscale := 24 } := by decide

/-- L1.5.3, L1.5.4. -/
theorem test_totalOrder_zeros :
    reply ⟨0x00A8, 0x8000000000000000, 0, 0, 0⟩ = some { Response.zero with bool := 1 } ∧
    reply ⟨0x00A8, 0, 0x8000000000000000, 0, 0⟩ = some Response.zero := by decide

/-- L1.7.1, L1.7.2: -2 before -1. -/
theorem test_totalOrder_negative :
    reply ⟨0x0008, 0xC000, 0xBC00, 0, 0⟩ = some { Response.zero with bool := 1 } ∧
    reply ⟨0x0008, 0xBC00, 0xC000, 0, 0⟩ = some Response.zero := by decide

/-- V-T33, V-T39. -/
theorem test_totalOrderMag :
    reply ⟨0x0059, 0xC0000000, 0x3F800000, 0, 0⟩ = some Response.zero ∧
    reply ⟨0x0009, 0xFC01, 0x7E00, 0, 0⟩ = some { Response.zero with bool := 1 } := by decide

/-- V-E16. -/
theorem test_totalOrderMag_widths : reply ⟨0x0089, 0, 0, 0, 0⟩ = some { Response.zero with err := 5 } := by decide

/-- V-E7, V-E2: a reserved opcode, whatever the other fields hold. -/
theorem test_reservedOp1011 :
    reply ⟨0x003A, 0, 0, 0, 0⟩ = some { Response.zero with err := 7 } ∧
    reply ⟨0x000B, 0, 0, 0, 0⟩ = some { Response.zero with err := 7 } := by decide

/-- V-E6. -/
theorem test_reservedOp1215 : reply ⟨0x000F, 0, 0, 0, 0⟩ = some { Response.zero with err := 7 } := by decide

/-- R185 and L1.8, on binary16: 1.5 is `0_01111_1000000000`. -/
theorem test_bitString : FloatValue.bitChars ⟨.w16, 0x3E00#16⟩ =
    ['0', '_', '0', '1', '1', '1', '1', '_', '1', '0', '0', '0', '0', '0', '0', '0', '0', '0'] := by decide

/-! ### Witnesses: concrete operands that meet the hypotheses of each statement, clause by clause -/

/-- DecodeAndEncodeAgree: every ignored bit is 1. -/
theorem witness_DecodeAndEncodeAgree :
    0xFFD6#16 &&& usedBits (Instr.bitSet .f32 1).opcode.toNat =
      encode (.bitSet .f32 1) &&& usedBits (Instr.bitSet .f32 1).opcode.toNat := by decide

/-- StepRunsTheDecodedCommand, EveryCommandGivesExactlyOneResponse: the three premises. -/
theorem witness_StepRunsTheDecodedCommand :
    (presented [⟨0xF010, 1, 2, 3, 4⟩]).pending = ⟨0xF010, 1, 2, 3, 4⟩ :: [] ∧
    (presented [⟨0x0816, 0, 0, 0, 31⟩]).pending = ⟨0x0816, 0, 0, 0, 31⟩ :: [] ∧
    (⟨0x0816, 0, 0, 0, 31⟩ : Command).cmd = encode (.bitSet .f32 1) ∧
    (presented []).pending = [] := by decide

/-- EarlierCommandLeavesNoTrace: a failed command, then another. -/
theorem witness_EarlierCommandLeavesNoTrace :
    (presented [⟨0x000F, 0, 0, 0, 0⟩, ⟨0x0000, 0x3C00, 0, 0, 0⟩]).pending =
      ⟨0x000F, 0, 0, 0, 0⟩ :: ⟨0x0000, 0x3C00, 0, 0, 0⟩ :: [] := by decide

/-- ResponseDependsOnTheCommandAlone: one command first in two states with different pasts and different futures. -/
theorem witness_ResponseDependsOnTheCommandAlone :
    (presented [⟨0x0000, 1, 0, 0, 0⟩]).pending = ⟨0x0000, 1, 0, 0, 0⟩ :: [] ∧
    ({ presented [⟨0x0000, 1, 0, 0, 0⟩, ⟨0x000A, 0, 0, 0, 0⟩] with responses := [Response.zero] } : State).pending =
      ⟨0x0000, 1, 0, 0, 0⟩ :: [⟨0x000A, 0, 0, 0, 0⟩] := by decide

/-- IgnoredPartsDoNotAffectTheResponse, one pair for each set of used parts; the second sample has other ignored parts. -/
theorem witness_AgreeOnUsed :
    AgreeOnUsed ⟨0x0010, 5, 0, 0, 0⟩ ⟨0xFFD0, 5, 1, 2, 3⟩ ∧
    AgreeOnUsed ⟨0x0301, 5, 0, 0, 64⟩ ⟨0xFBF1, 5, 1, 2, 64⟩ ∧
    AgreeOnUsed ⟨0x0312, 5, 0, 0, 4⟩ ⟨0xFBD2, 5, 1, 2, 4⟩ ∧
    AgreeOnUsed ⟨0x0013, 1, 2, 3, 0⟩ ⟨0xFFD3, 1, 2, 3, 9⟩ ∧
    AgreeOnUsed ⟨0x0025, 1, 0, 0, 63⟩ ⟨0xFFE5, 1, 7, 7, 63⟩ ∧
    AgreeOnUsed ⟨0x0806, 1, 0, 0, 15⟩ ⟨0xFFC6, 1, 7, 7, 15⟩ ∧
    AgreeOnUsed ⟨0x0058, 1, 2, 0, 0⟩ ⟨0xFF58, 1, 2, 7, 7⟩ ∧
    AgreeOnUsed ⟨0x000A, 0, 0, 0, 0⟩ ⟨0xFFFA, 1, 2, 3, 4⟩ := by
  simp +decide [AgreeOnUsed]

/-- PortBitsAboveTheWidthAreIgnored, at each width: the bit just above the width differs; at width 64 there is none. -/
theorem witness_PortBitsAboveTheWidthAreIgnored :
    (0x13C00#64).toNat % 2 ^ Width.w16.bits = (0x03C00#64).toNat % 2 ^ Width.w16.bits ∧
    (0x13F800000#64).toNat % 2 ^ Width.w32.bits = (0x03F800000#64).toNat % 2 ^ Width.w32.bits ∧
    (0x7FF0000000000000#64).toNat % 2 ^ Width.w64.bits = (0x7FF0000000000000#64).toNat % 2 ^ Width.w64.bits := by decide

/-- A failed command's response is legal. -/
theorem legal_failure : (failure 7 0).Legal where
  errProduced := by decide
  detailOnlyForOverflow := by decide
  failedDrivesNothing := by decide
  fmtDefined := by decide
  booleanAlone := by decide
  kindDefined := by decide
  sentinelEmpty := by decide
  oneCategory := by decide
  recordOrNothing := by decide
  fieldsFit := by intro w; cases w <;> decide
  bitsAreFields := by intro w; cases w <;> decide
  signFlag := by decide
  exponentRange := by decide

/-- StepKeepsResponsesLegal: a state in which a response has left, and the step it takes. -/
theorem witness_StepKeepsResponsesLegal :
    let s : State := { presented [⟨0x000A, 0, 0, 0, 0⟩] with responses := [failure 7 0] }
    s.Inv ∧ step s = .next ⟨⟨0x000A, 0, 0, 0, 0⟩, [], [failure 7 0, failure 7 0]⟩ := by
  refine ⟨fun r hr => ?_, rfl⟩
  obtain rfl := List.mem_singleton.mp hr
  exact legal_failure

/-- FromBytesResult: each order is some option's, and the lengths on both sides of each right one. -/
theorem witness_FromBytesResult :
    usedOrder .littleEndian = .ok .little ∧ usedOrder .bigEndian = .ok .big ∧ usedOrder .native = .ok Config.nativeOrder ∧
    (2#8).toNat * 8 = Width.w16.bits ∧ (4#8).toNat * 8 = Width.w32.bits ∧ (8#8).toNat * 8 = Width.w64.bits ∧
    (1#8).toNat * 8 ≠ Width.w16.bits ∧ (3#8).toNat * 8 ≠ Width.w16.bits ∧ (255#8).toNat * 8 ≠ Width.w64.bits :=
  ⟨rfl, rfl, rfl, by decide⟩

/-- FromNumericResult: the order premise, and the requested widths where the snapped width changes; each is in one clause. -/
theorem witness_FromNumericResult :
    usedOrder .network = .ok .big ∧ usedOrder .nativeAligned = .ok Config.nativeOrder ∧
    snap 0 = .w16 ∧ snap 31 = .w16 ∧ snap 32 = .w32 ∧ snap 62 = .w32 ∧ snap 63 = .w64 ∧ snap 255 = .w64 :=
  ⟨rfl, rfl, by decide⟩

/-- FromFieldsResult: the largest tuple that fits, and the least sign, exponent and mantissa that do not, at each width. -/
theorem witness_FromFieldsResult :
    ((onPorts 1 31 1023 0).current.opa.toNat ≤ 1 ∧ (onPorts 1 31 1023 0).current.opb.toNat < 2 ^ Width.w16.expLen ∧
      (onPorts 1 31 1023 0).current.opc.toNat < 2 ^ Width.w16.mantLen) ∧
    1 < (onPorts 2 0 0 0).current.opa.toNat ∧
    ((onPorts 1 256 0 0).current.opa.toNat ≤ 1 ∧ 2 ^ Width.w32.expLen ≤ (onPorts 1 256 0 0).current.opb.toNat) ∧
    ((onPorts 0 2047 0x10000000000000 0).current.opa.toNat ≤ 1 ∧
      (onPorts 0 2047 0x10000000000000 0).current.opb.toNat < 2 ^ Width.w64.expLen ∧
      2 ^ Width.w64.mantLen ≤ (onPorts 0 2047 0x10000000000000 0).current.opc.toNat) := by decide

/-- FieldTupleRoundTrip: the largest tuple of binary32. -/
theorem witness_FieldTupleRoundTrip :
    (1#64).toNat ≤ 1 ∧ (255#64).toNat < 2 ^ Width.w32.expLen ∧ (0x7FFFFF#64).toNat < 2 ^ Width.w32.mantLen := by decide

/-- BitAtResult, BitSetResult, BitFlipResult, BitMutationIdempotence: the last index and the first that is none. -/
theorem witness_BitIndex :
    (onPorts 0 0 0 15).current.aux.toNat < Width.w16.bits ∧ Width.w16.bits ≤ (onPorts 0 0 0 16).current.aux.toNat ∧
    (onPorts 0 0 0 63).current.aux.toNat < Width.w64.bits ∧ Width.w64.bits ≤ (onPorts 0 0 0 64).current.aux.toNat ∧
    (31#8).toNat < Width.w32.bits := by decide

/-- UnbiasedExponentFormula, UnbiasedExponentRange, MantissaValueIsTheBitSum: a pattern of each category, the smallest and the largest normal
and subnormal among them. -/
theorem witness_Category :
    FloatValue.isZero ⟨.w16, 0x8000#16⟩ = true ∧ FloatValue.isSubnormal ⟨.w16, 0x0001#16⟩ = true ∧
    FloatValue.isSubnormal ⟨.w16, 0x83FF#16⟩ = true ∧ FloatValue.isNormal ⟨.w16, 0x0400#16⟩ = true ∧
    FloatValue.isNormal ⟨.w16, 0xFBFF#16⟩ = true ∧ FloatValue.isInfinite ⟨.w16, 0x7C00#16⟩ = true ∧
    FloatValue.isNaN ⟨.w16, 0xFC01#16⟩ = true := by decide

/-- NumericValueIsTheIeeeValue: the same, in the claims' own terms. -/
theorem witness_NumericValueIsTheIeeeValue :
    IsZero .w16 0x8000 ∧ IsSubnormal .w16 0x0001 ∧ IsSubnormal .w16 0x83FF ∧ IsNormal .w16 0x0400 ∧ IsNormal .w16 0xFBFF ∧
    IsInfinite .w16 0x7C00 ∧ IsNaN .w16 0xFC01 := by decide

/-- NumericValueOrdersThePatterns: finite nonzero patterns with one value, and neighbours within each category. -/
theorem witness_NumericValueOrdersThePatterns :
    (FloatValue.isFinite ⟨.w16, 0x83FF#16⟩ = true ∧ FloatValue.isZero ⟨.w16, 0x83FF#16⟩ = false ∧
      (FloatValue.asNumber ⟨.w16, 0x83FF#16⟩).toRat = (FloatValue.asNumber ⟨.w16, 0x83FF#16⟩).toRat) ∧
    (FloatValue.isNormal ⟨.w16, 0x0400#16⟩ = true ∧ FloatValue.isNormal ⟨.w16, 0x8401#16⟩ = true ∧
      magOf .w16 (0x0400#16).toNat < magOf .w16 (0x8401#16).toNat) ∧
    (FloatValue.isSubnormal ⟨.w16, 0x03FE#16⟩ = true ∧ FloatValue.isSubnormal ⟨.w16, 0x83FF#16⟩ = true ∧
      magOf .w16 (0x03FE#16).toNat < magOf .w16 (0x83FF#16).toNat) :=
  ⟨⟨by decide, by decide, rfl⟩, by decide, by decide⟩

/-- OrderOfFiniteNonzeroIsNumeric: the least subnormal and the largest normal. -/
theorem witness_OrderOfFiniteNonzeroIsNumeric :
    IsFinite .w16 (0x0001#16).toNat ∧ IsFinite .w16 (0xFBFF#16).toNat ∧ ¬ IsZero .w16 (0x0001#16).toNat ∧
    ¬ IsZero .w16 (0xFBFF#16).toNat := by decide

/-- OrderOfZeros, its three clauses. -/
theorem witness_OrderOfZeros :
    (IsZero .w16 (0x0000#16).toNat ∧ IsZero .w16 (0x8000#16).toNat) ∧
    (IsZero .w16 (0x8000#16).toNat ∧ IsFinite .w16 (0x8001#16).toNat ∧ ¬ IsZero .w16 (0x8001#16).toNat) ∧
    (IsFinite .w16 (0x7BFF#16).toNat ∧ ¬ IsZero .w16 (0x7BFF#16).toNat ∧ IsZero .w16 (0x0000#16).toNat) := by decide

/-- OrderOfNaNs, its six clauses: a negative NaN against an infinity, a positive NaN against a negative one, and two of one sign. -/
theorem witness_OrderOfNaNs :
    (IsNaN .w16 (0xFC01#16).toNat ∧ signOf .w16 (0xFC01#16).toNat = 1) ∧
    ¬ (IsNaN .w16 (0xFC00#16).toNat ∧ signOf .w16 (0xFC00#16).toNat = 1) ∧
    (IsNaN .w16 (0x7C01#16).toNat ∧ signOf .w16 (0x7C01#16).toNat = 0) ∧
    ¬ (IsNaN .w16 (0x7C00#16).toNat ∧ signOf .w16 (0x7C00#16).toNat = 0) ∧
    (IsNaN .w16 (0x7FFF#16).toNat ∧ signOf .w16 (0x7FFF#16).toNat = 0) ∧
    (IsNaN .w16 (0xFFFF#16).toNat ∧ signOf .w16 (0xFFFF#16).toNat = 1) := by decide

/-- OrderOfInfinities, its four clauses. -/
theorem witness_OrderOfInfinities :
    (¬ IsNaN .w16 (0xFC00#16).toNat ∧ IsInfinite .w16 (0xFC00#16).toNat ∧ signOf .w16 (0xFC00#16).toNat = 1) ∧
    (¬ IsNaN .w16 (0xFBFF#16).toNat ∧ ¬ (IsInfinite .w16 (0xFBFF#16).toNat ∧ signOf .w16 (0xFBFF#16).toNat = 1)) ∧
    (¬ IsNaN .w16 (0x7C00#16).toNat ∧ IsInfinite .w16 (0x7C00#16).toNat ∧ signOf .w16 (0x7C00#16).toNat = 0) ∧
    IsFinite .w16 (0x7BFF#16).toNat := by decide

/-- TotalOrderIsATotalOrder: ordered pairs, and a pair of finite patterns with `-2 < 1`. -/
theorem witness_TotalOrderIsATotalOrder :
    (totalOrder ⟨.w16, 0xC000#16⟩ ⟨.w16, 0xC000#16⟩ = true ∧ totalOrder ⟨.w16, 0xC000#16⟩ ⟨.w16, 0x8000#16⟩ = true ∧
      totalOrder ⟨.w16, 0x8000#16⟩ ⟨.w16, 0x7E00#16⟩ = true) ∧
    (IsFinite .w16 (0xC000#16).toNat ∧ ¬ IsZero .w16 (0xC000#16).toNat ∧ IsFinite .w16 (0x3C00#16).toNat ∧
      ¬ IsZero .w16 (0x3C00#16).toNat) ∧
    ieeeValue .w16 (0xC000#16).toNat < ieeeValue .w16 (0x3C00#16).toNat := by
  refine ⟨by decide, by decide, ?_⟩
  norm_num [ieeeValue, signOf, expOf, fracOf, Width.bias]

/-- TotalOrderResult, TotalOrderMagResult. -/
theorem witness_DifferentWidths : Width.w16 ≠ Width.w32 := by decide

/-- ReservedOpcodeRespondsReservedEncoding: the first and the last reserved opcode. -/
theorem witness_ReservedOpcode :
    (presented [⟨0x000A, 0, 0, 0, 0⟩]).pending = ⟨0x000A, 0, 0, 0, 0⟩ :: [] ∧ 10 ≤ (0x000A#16).toNat % 16 ∧
    (presented [⟨0xFFFF, 0, 0, 0, 0⟩]).pending = ⟨0xFFFF, 0, 0, 0, 0⟩ :: [] ∧ 10 ≤ (0xFFFF#16).toNat % 16 := by decide

/-- ReservedCodeInAUsedFieldFails, both clauses, a format and an order among them. -/
theorem witness_ReservedCodeInAUsedFieldFails :
    ((Instr.totalOrder .f64 .reserved).opcodeDefined = true ∧ (Instr.totalOrder .f64 .reserved).formatsDefined = false) ∧
    ((Instr.fromNumeric .reserved101).opcodeDefined = true ∧ (Instr.fromNumeric .reserved101).orderDefined = false) ∧
    ((Instr.fromBytes .f64 .network).opcodeDefined = true ∧ (Instr.fromBytes .f64 .network).formatsDefined = true ∧
      (Instr.fromBytes .f64 .network).orderDefined = true) := by decide

/-- FailedCommandDrivesOnlyItsError: a command whose response has an error. -/
theorem witness_FailedCommand :
    exec (.bitAt .f16) (onPorts 0 0 0 16) = .next { onPorts 0 0 0 16 with responses := [failure 6 0] } ∧
    (failure 6 0).err ≠ 0 :=
  ⟨rfl, by decide⟩

end Sys2Proof.Tests
end

section
/-! Settles the statements about byte order (20_memory.md). -/

namespace Sys2Proof.Machine

/-- Settles O18: the five options are the five rows of R43's table as `usedOrder` gives them, in the order of the statement. The two
native options resolve to the open parameter itself, so this holds for either value of it. -/
theorem byteOrderOptionsResolve : Obligations.ByteOrderOptionsResolve := by
  unfold Obligations.ByteOrderOptionsResolve
  exact ⟨rfl, rfl, rfl, rfl, rfl⟩

end Sys2Proof.Machine
end

section
/-! Reserved encodings (30_encoding.md, R69 and R70): an ill-formed command is answered with ReservedEncoding, a well-formed one never
is. -/

namespace Sys2Proof

/-- The defined format codes are those the three widths have (R63). -/
theorem FormatCode.exists_width {f : FormatCode} (h : f.defined = true) : ∃ w : Width, f = w.formatCode := by
  cases f with
  | f16 => exact ⟨.w16, rfl⟩
  | f32 => exact ⟨.w32, rfl⟩
  | f64 => exact ⟨.w64, rfl⟩
  | reserved => contradiction

/-- The defined opcodes are 0000 to 1001 (R65, R69). -/
theorem Instr.opcodeDefined_iff (i : Instr) : i.opcodeDefined = true ↔ i.opcode.toNat < 10 := by
  cases i with
  | reservedOp1011 low => revert low; decide
  | reservedOp1215 low => revert low; decide
  | _ => exact iff_of_true rfl (by simp [Instr.opcode])

/-- A word with OP 1010 to 1111 decodes to a command with a reserved opcode. -/
theorem opcodeDefined_decode_eq_false {w : CmdWord} (h : 10 ≤ w.toNat % 16) : (decode w).opcodeDefined = false := by
  rw [← Bool.not_eq_true, Instr.opcodeDefined_iff, decode_opcode, fieldOp_toNat]
  omega

namespace Machine

open Sys2Proof.Claim

/-! ### Ill-formed commands -/

/-- A used format field that holds 11 ends the command (R70). -/
theorem usedFormat_bind_of_undefined {α : Type} {f : FormatCode} (h : f.defined = false) (k : Width → Except CmdError α) :
    (usedFormat f >>= k) = .error .reservedEncoding := by
  cases f with
  | reserved => rfl
  | f16 | f32 | f64 => contradiction

/-- A command that ends with ReservedEncoding after its format field ends so whatever that field holds. -/
theorem usedFormat_bind_of_forall {α : Type} {f : FormatCode} {k : Width → Except CmdError α}
    (h : ∀ w, k w = .error .reservedEncoding) : (usedFormat f >>= k) = .error .reservedEncoding := by
  cases f with
  | reserved => rfl
  | f16 | f32 | f64 => exact h _

/-- A used ORD field that holds a reserved code ends the command (R70). -/
theorem usedOrder_bind_of_undefined {α : Type} {o : OrderCode} (h : o.defined = false)
    (k : ByteOrder → Except CmdError α) : (usedOrder o >>= k) = .error .reservedEncoding := by
  obtain ⟨ho, -⟩ | ⟨-, ho⟩ := usedOrder_cases o
  · simp [h] at ho
  · rw [ho, error_bind]

/-- A comparison with 11 in either format field ends there, whether or not the formats differ (R70, R264). -/
theorem comparedOperands_of_undefined {fa fb : FormatCode} (h : (fa.defined && fb.defined) = false) (c : Command) :
    comparedOperands fa fb c = .error .reservedEncoding := by
  rcases Bool.and_eq_false_iff.mp h with ha | hb
  · exact usedFormat_bind_of_undefined ha _
  · exact usedFormat_bind_of_forall fun _ => usedFormat_bind_of_undefined hb _

/-- FROM_BYTES fails so for either of its two fields, before it looks at the length (R70, R264). -/
theorem outcomeFromBytes_of_undefined {fa : FormatCode} {ord : OrderCode} (h : (fa.defined && ord.defined) = false)
    (c : Command) : outcomeFromBytes fa ord c = .error .reservedEncoding := by
  rcases Bool.and_eq_false_iff.mp h with ha | ho
  · exact usedFormat_bind_of_undefined ha _
  · exact usedFormat_bind_of_forall fun _ => usedOrder_bind_of_undefined ho _

/-- A reserved code anywhere in what a command uses is the only thing it reports (R69, R70). -/
theorem outcomeOf_of_not_wellFormed {i : Instr} (h : i.wellFormed = false) (c : Command) :
    outcomeOf i c = .error .reservedEncoding := by
  simp only [Instr.wellFormed] at h
  cases i with
  | decode fa | fromFields fa | toFields fa | bitAt fa | bitSet fa _ | bitFlip fa =>
    exact usedFormat_bind_of_undefined (by simpa [Instr.opcodeDefined, Instr.formatsDefined, Instr.orderDefined] using h) _
  | fromNumeric ord => exact usedOrder_bind_of_undefined h _
  | fromBytes fa ord => exact outcomeFromBytes_of_undefined h c
  | totalOrder fa fb | totalOrderMag fa fb =>
    have h' : (fa.defined && fb.defined) = false := by
      simpa [Instr.opcodeDefined, Instr.formatsDefined, Instr.orderDefined] using h
    simp only [outcomeOf, outcomeTotalOrder, outcomeTotalOrderMag, comparedOperands_of_undefined h', error_bind]
  | reservedOp1011 _ | reservedOp1215 _ => rfl

/-- An ill-formed command answers error 7 with every other output 0, and changes nothing else (R69, R70, R262). -/
theorem exec_of_not_wellFormed {i : Instr} (h : i.wellFormed = false) (s : State) :
    exec i s = .next { s with responses := s.responses ++ [failure 7 0] } := by
  rw [exec_eq_complete, outcomeOf_of_not_wellFormed h, complete_eq_next]
  rfl

/-! ### Well-formed commands -/

@[simp] theorem recordOut_err (x : FloatValue) : (recordOut x).err = 0 := rfl
@[simp] theorem tupleOut_err (x : FloatValue) : (tupleOut x).err = 0 := rfl
@[simp] theorem boolOut_err (b : BitVec 1) : (boolOut b).err = 0 := rfl

/-- ReservedEncoding is the one error with code 7 (R260). -/
theorem CmdError.code_eq_seven_iff (e : CmdError) : e.code = 7 ↔ e = .reservedEncoding := by
  cases e <;> simp [CmdError.code]

/-- The answers a well-formed command can give: one of the three output groups (R71), or an error that is not ReservedEncoding. -/
inductive WellFormedAnswer : Response → Prop
  | record (x : FloatValue) : WellFormedAnswer (recordOut x)
  | tuple (x : FloatValue) : WellFormedAnswer (tupleOut x)
  | bool (b : BitVec 1) : WellFormedAnswer (boolOut b)
  | error {e : CmdError} (h : e ≠ .reservedEncoding) : WellFormedAnswer (raiseError e)

namespace WellFormedAnswer

theorem err_ne_seven {r : Response} (h : WellFormedAnswer r) : r.err ≠ 7 := by
  cases h with
  | record x | tuple x | bool b => simp
  | error he => rwa [raiseError_err, ne_eq, CmdError.code_eq_seven_iff]

/-! One rule for each check a command makes: what the check hands on is answered so, and so is what it raises. -/

theorem usedFormat_bind {f : FormatCode} {k : Width → Except CmdError Response} (hf : f.defined = true)
    (hk : ∀ w, WellFormedAnswer (responseOf (k w))) : WellFormedAnswer (responseOf (usedFormat f >>= k)) := by
  obtain ⟨w, rfl⟩ := FormatCode.exists_width hf
  rw [usedFormat_formatCode, ok_bind]
  exact hk w

theorem usedOrder_bind {o : OrderCode} {k : ByteOrder → Except CmdError Response} (ho : o.defined = true)
    (hk : ∀ b, WellFormedAnswer (responseOf (k b))) : WellFormedAnswer (responseOf (usedOrder o >>= k)) := by
  obtain ⟨-, b, hb⟩ | ⟨hu, -⟩ := usedOrder_cases o
  · rw [hb, ok_bind]
    exact hk b
  · simp [ho] at hu

theorem raiseIf_bind {bad : Bool} {e : CmdError} {k : Unit → Except CmdError Response} (he : e ≠ .reservedEncoding)
    (hk : WellFormedAnswer (responseOf (k ()))) : WellFormedAnswer (responseOf (raiseIf bad e >>= k)) := by
  cases bad with
  | true => exact error he
  | false => exact hk

theorem usedIndex_bind {w : Width} {c : Command} {k : Nat → Except CmdError Response}
    (hk : ∀ i, WellFormedAnswer (responseOf (k i))) : WellFormedAnswer (responseOf (usedIndex w c >>= k)) := by
  rcases lt_or_ge c.aux.toNat w.bits with h | h
  · rw [usedIndex_of_lt h, ok_bind]
    exact hk _
  · rw [usedIndex_of_le h]
    exact error (by decide)

theorem comparedOperands_bind {fa fb : FormatCode} {c : Command} {k : FloatValue × FloatValue → Except CmdError Response}
    (h : (fa.defined && fb.defined) = true) (hk : ∀ p, WellFormedAnswer (responseOf (k p))) :
    WellFormedAnswer (responseOf (comparedOperands fa fb c >>= k)) := by
  obtain ⟨ha, hb⟩ := Bool.and_eq_true_iff.mp h
  obtain ⟨w, rfl⟩ := FormatCode.exists_width ha
  obtain ⟨v, rfl⟩ := FormatCode.exists_width hb
  by_cases hwv : w = v
  · subst hwv
    rw [comparedOperands_same, ok_bind]
    exact hk _
  · rw [comparedOperands_differ hwv]
    exact error (by decide)

end WellFormedAnswer

/-- A command with no reserved code in what it uses, check by check. -/
theorem wellFormedAnswer_outcomeOf {i : Instr} (h : i.wellFormed = true) (c : Command) :
    WellFormedAnswer (responseOf (outcomeOf i c)) := by
  simp only [Instr.wellFormed, Bool.and_eq_true] at h
  obtain ⟨⟨hop, hf⟩, ho⟩ := h
  cases i with
  | decode fa => exact .usedFormat_bind hf fun _ => .record _
  | fromNumeric ord => exact .usedOrder_bind ho fun _ => .record _
  | fromBytes fa ord =>
    exact .usedFormat_bind hf fun _ => .usedOrder_bind ho fun _ => .raiseIf_bind (by decide) (.record _)
  | fromFields fa =>
    exact .usedFormat_bind hf fun _ => .raiseIf_bind (by decide) <| .raiseIf_bind (by decide) <|
      .raiseIf_bind (by decide) (.record _)
  | toFields fa => exact .usedFormat_bind hf fun _ => .tuple _
  | bitAt fa => exact .usedFormat_bind hf fun _ => .usedIndex_bind fun _ => .bool _
  | bitSet fa bv => exact .usedFormat_bind hf fun _ => .usedIndex_bind fun _ => .record _
  | bitFlip fa => exact .usedFormat_bind hf fun _ => .usedIndex_bind fun _ => .record _
  | totalOrder fa fb => exact .comparedOperands_bind hf fun _ => .bool _
  | totalOrderMag fa fb => exact .comparedOperands_bind hf fun _ => .bool _
  | reservedOp1011 _ | reservedOp1215 _ => contradiction

/-! ### The two statements -/

/-- Settles O46: a reserved code makes the command ill-formed, which ends it with error 7; without one it is well-formed, and none of
the answers it can give has error 7. -/
theorem reservedCodeInAUsedFieldFails : Obligations.ReservedCodeInAUsedFieldFails := by
  unfold Obligations.ReservedCodeInAUsedFieldFails
  intro i s hop
  refine ⟨fun h => ?_, fun hf ho => ?_⟩
  · have hwf : i.wellFormed = false := by
      rcases h with h | h <;> simp [Instr.wellFormed, h]
    exact exec_of_not_wellFormed hwf s
  · have hwf : i.wellFormed = true := by simp [Instr.wellFormed, hop, hf, ho]
    exact ⟨responseOf (outcomeOf i s.current), by rw [exec_eq_complete, complete_eq_next],
      (wellFormedAnswer_outcomeOf hwf s.current).err_ne_seven⟩

/-- Settles O45: both reserved rows are ill-formed, and every word with OP 1010 to 1111 decodes to one of them. -/
theorem reservedOpcodeRespondsReservedEncoding : Obligations.ReservedOpcodeRespondsReservedEncoding := by
  unfold Obligations.ReservedOpcodeRespondsReservedEncoding
  refine ⟨fun low s => exec_of_not_wellFormed rfl s, fun low s => exec_of_not_wellFormed rfl s, fun s c rest hp h => ?_⟩
  have hwf : (decode c.cmd).wellFormed = false := by simp [Instr.wellFormed, opcodeDefined_decode_eq_false h]
  rw [step_of_pending hp, respond, outcomeOf_of_not_wellFormed hwf]
  rfl

end Machine
end Sys2Proof
end

section
/-! Ignored parts (30_encoding.md, R68): the fields an opcode uses fix the decoded command, and the ports it uses fix its outcome. -/

namespace Sys2Proof.Machine

open Sys2Proof.Claim

/-- Two words agree on the fields of `u` (R61). -/
def AgreeOnFields (u : Uses) (v w : CmdWord) : Prop :=
  (u.fa = true → fieldFa w = fieldFa v) ∧ (u.fb = true → fieldFb w = fieldFb v) ∧
    (u.ord = true → fieldOrd w = fieldOrd v) ∧ (u.bv = true → fieldBv w = fieldBv v)

/-- Two samples agree on the ports of `u` (R60). -/
def AgreeOnPorts (u : Uses) (c d : Command) : Prop :=
  (u.opa = true → d.opa = c.opa) ∧ (u.opb = true → d.opb = c.opb) ∧ (u.opc = true → d.opc = c.opc) ∧
    (u.aux = true → d.aux = c.aux)

/-- Agreement on what an opcode uses is agreement on OP, on its fields and on its ports. -/
theorem agreeOnUsed_iff (c d : Command) : AgreeOnUsed c d ↔
    (fieldOp d.cmd).toNat = (fieldOp c.cmd).toNat ∧
      AgreeOnFields (usesOf (fieldOp c.cmd).toNat) c.cmd d.cmd ∧ AgreeOnPorts (usesOf (fieldOp c.cmd).toNat) c d := by
  simp only [AgreeOnUsed, AgreeOnFields, AgreeOnPorts, fieldOp_toNat, fieldFa, fieldFb, fieldOrd, fieldBv, and_assoc]

/-- OP and the fields it uses fix the decoded command (R67). -/
theorem decode_eq_of_agreeOnFields {v w : CmdWord} (hop : (fieldOp w).toNat = (fieldOp v).toNat)
    (hf : AgreeOnFields (usesOf (fieldOp v).toNat) v w) : decode w = decode v := by
  have hlow : w.extractLsb' 0 2 = v.extractLsb' 0 2 := by
    apply BitVec.eq_of_toNat_eq
    rw [fieldOp_toNat, fieldOp_toNat] at hop
    simp only [BitVec.extractLsb'_toNat, Nat.shiftRight_zero]
    omega
  obtain ⟨ha, hb, ho, hv⟩ := hf
  have hlt := (fieldOp v).isLt
  -- the sixteen rows of the opcode map, each built from the fields its row of R67 lists
  simp only [decode, hop, hlow]
  generalize (fieldOp v).toNat = op at *
  interval_cases op <;> simp_all [usesOf]

/-- The ports an opcode uses fix the outcome of its command (R67). -/
theorem outcomeOf_eq_of_agreeOnPorts {i : Instr} {c d : Command} (h : AgreeOnPorts (usesOf i.opcode.toNat) c d) :
    outcomeOf i d = outcomeOf i c := by
  obtain ⟨ha, hb, hc, hx⟩ := h
  cases i with
  | decode fa => simp only [outcomeOf, outcomeDecode, ha rfl]
  | fromNumeric ord => rw [outcomeOf, outcomeOf, outcomeFromNumeric, outcomeFromNumeric, ha rfl, hx rfl]
  | fromBytes fa ord => simp only [outcomeOf, outcomeFromBytes, ha rfl, hx rfl]
  | fromFields fa => simp only [outcomeOf, outcomeFromFields, ha rfl, hb rfl, hc rfl]
  | toFields fa => simp only [outcomeOf, outcomeToFields, ha rfl]
  | bitAt fa => simp only [outcomeOf, outcomeBitAt, usedIndex, ha rfl, hx rfl]
  | bitSet fa bv => simp only [outcomeOf, outcomeBitSet, usedIndex, ha rfl, hx rfl]
  | bitFlip fa => simp only [outcomeOf, outcomeBitFlip, usedIndex, ha rfl, hx rfl]
  | totalOrder fa fb => simp only [outcomeOf, outcomeTotalOrder, comparedOperands, ha rfl, hb rfl]
  | totalOrderMag fa fb => simp only [outcomeOf, outcomeTotalOrderMag, comparedOperands, ha rfl, hb rfl]
  | reservedOp1011 _ | reservedOp1215 _ => rfl

/-- The combinational function does not see the parts an opcode does not use (R68, R297). -/
theorem respond_eq_of_agreeOnUsed {c d : Command} (h : AgreeOnUsed c d) : respond d = respond c := by
  obtain ⟨hop, hfields, hports⟩ := (agreeOnUsed_iff c d).mp h
  rw [respond, decode_eq_of_agreeOnFields hop hfields, respond, outcomeOf_eq_of_agreeOnPorts]
  rwa [decode_opcode]

/-- The response of a step is that of the oldest pending command. -/
theorem lastResponse_step_of_pending {s : State} {c : Command} {rest : List Command} (h : s.pending = c :: rest) :
    lastResponse (step s) = some (respond c) := by
  simp [step_of_pending h, lastResponse]

/-- Settles O10: a step answers with the combinational function, which gives both samples one response. -/
theorem ignoredPartsDoNotAffectTheResponse : Obligations.IgnoredPartsDoNotAffectTheResponse := by
  unfold Obligations.IgnoredPartsDoNotAffectTheResponse
  intro s c d rest h
  refine ⟨respond c, ?_, ?_⟩
  · exact lastResponse_step_of_pending rfl
  · rw [lastResponse_step_of_pending rfl, respond_eq_of_agreeOnUsed h]

end Sys2Proof.Machine
end

section
/-! Bytes of a permuted pattern, bit by bit (40_bitdecoder.md, R101): byte j of joined bytes is the byte at place j from the end. -/

namespace Sys2Proof.Machine

theorem joinBytes_append_singleton (w : Width) (bs : List Byte) (x : Byte) :
    joinBytes w (bs ++ [x]) = joinBytes w bs <<< 8 ||| x.setWidth w.bits := by
  simp [joinBytes]

/-- Bit b of byte j of joined bytes, counted from the least significant, is bit b of the byte at place j from the end. -/
theorem joinBytes_getLsbD (w : Width) (bs : List Byte) {j b : Nat} (hb : b < 8) (hw : 8 * j + b < w.bits) :
    (joinBytes w bs).getLsbD (8 * j + b) = (bs.reverse[j]?.getD 0).getLsbD b := by
  induction bs using List.reverseRecOn generalizing j with
  | nil => simp [joinBytes]
  | append_singleton bs x ih =>
    rw [joinBytes_append_singleton, BitVec.getLsbD_or, BitVec.getLsbD_shiftLeft, BitVec.getLsbD_setWidth]
    cases j with
    | zero =>
      have hbw : b < w.bits := by omega
      simp [hb, hbw]
    | succ j =>
      have above : x.getLsbD (8 * (j + 1) + b) = false := BitVec.getLsbD_of_ge _ _ (by omega)
      have below : 8 * (j + 1) + b - 8 = 8 * j + b := by omega
      have notLow : ¬ 8 * (j + 1) + b < 8 := by omega
      rw [above, below, ih (by omega)]
      simp [hw, notLow]

/-- Byte j of a pattern, the most significant first (R44). -/
theorem patternBytes_getElem? (w : Width) (q : BitVec w.bits) {j : Nat} (hj : j < w.bits / 8) :
    (patternBytes w q)[j]? = some (q.extractLsb' (w.bits - 8 - 8 * j) 8) := by
  simp [patternBytes, hj]

theorem permute_big (w : Width) (q : BitVec w.bits) : permute w q .big = q := rfl

/-- R101: LITTLE moves whole bytes to the mirrored place, each bit keeping its place in its byte. -/
theorem permute_little_getLsbD (w : Width) (q : BitVec w.bits) {j b : Nat} (hj : j < w.bits / 8) (hb : b < 8) :
    (permute w q .little).getLsbD (8 * j + b) = q.getLsbD (w.bits - 8 - 8 * j + b) := by
  rw [permute, joinBytes_getLsbD w _ hb (by omega), List.reverse_reverse, patternBytes_getElem? w q hj,
    Option.getD_some, BitVec.getLsbD_extractLsb']
  simp [hb]

/-- Settles O19: BIG is the identity, and LITTLE joins the pattern's bytes in the other order. -/
theorem permuteReversesWholeBytes : Obligations.PermuteReversesWholeBytes := by
  unfold Obligations.PermuteReversesWholeBytes
  exact fun w q => ⟨permute_big w q, fun _ hj _ hb => permute_little_getLsbD w q hj hb⟩

end Sys2Proof.Machine
end

section
/-! The unbiased exponent (41_classifier.md, R151): its two cases are the categories with a fixed exponent, and the normals with the
subnormals. -/

namespace Sys2Proof.Machine

open Sys2Proof.Claim

/-- The normals and the subnormals are what the zeros, the infinities and the NaNs leave: exponent 0 and the largest exponent are
different, and a normal has neither. -/
theorem isNormal_or_isSubnormal_iff (w : Width) (p : Nat) :
    IsNormal w p ∨ IsSubnormal w p ↔ ¬ (IsZero w p ∨ IsInfinite w p ∨ IsNaN w p) := by
  have hmax := two_le_expMax w
  constructor
  · rintro (⟨hlow, hhigh⟩ | ⟨hexp, hfrac⟩)
    · omega
    · omega
  · intro hnot
    obtain hz | hs | hn | hi | hnan := category_cases w p
    · exact absurd (.inl hz) hnot
    · exact .inr hs
    · exact .inl hn
    · exact absurd (.inr (.inl hi)) hnot
    · exact absurd (.inr (.inr hnan)) hnot

/-- Settles O32: `unbiasedExponent_eq` has the formula for a normal or a subnormal and 0 elsewhere, and the other three categories are
that elsewhere. -/
theorem unbiasedExponentFormula : Obligations.UnbiasedExponentFormula := by
  unfold Obligations.UnbiasedExponentFormula
  intro w p
  simp only [isZero_eq, isInfinite_eq, isNaN_eq, isNormal_eq, isSubnormal_eq, decide_eq_true_eq, unbiasedExponent_eq]
  have hcases := isNormal_or_isSubnormal_iff w p.toNat
  refine ⟨storedExponent_eq w p, fun hspecial => ?_, fun hnot => ?_⟩
  · exact if_neg fun hns => hcases.mp hns hspecial
  · have hns := hcases.mpr hnot
    exact ⟨hns, if_pos hns⟩

end Sys2Proof.Machine
end

section
/-! The characters of bitString by place (42_floatvalue.md, R185): the text is the sign, a separator, the exponent group, a separator
and the mantissa group, so each place falls in one of the five. -/

namespace Sys2Proof.Machine

theorem bitChar_ofBool (b : Bool) : bitChar (BitVec.ofBool b) = if b then '1' else '0' := by
  cases b <;> rfl

/-- The characters of the `len` bits of the pattern from sequence index `start` on: a group of `bitChars`. -/
def FloatValue.groupChars (x : FloatValue) (start len : Nat) : List Char :=
  (List.range len).map fun i => bitChar (x.seqBit (start + i))

@[simp] theorem groupChars_length (x : FloatValue) (start len : Nat) : (x.groupChars start len).length = len := by
  simp [FloatValue.groupChars]

theorem groupChars_getElem? (x : FloatValue) (start : Nat) {len i : Nat} (hi : i < len) :
    (x.groupChars start len)[i]? = some (bitChar (x.seqBit (start + i))) := by
  simp [FloatValue.groupChars, hi]

theorem bitChars_eq_groups (x : FloatValue) : x.bitChars =
    bitChar (x.seqBit 0) :: '_' :: (x.groupChars 1 x.width.expLen ++
      '_' :: x.groupChars (x.width.expLen + 1) x.width.mantLen) := by
  simp [FloatValue.bitChars, FloatValue.groupChars]

theorem bitChars_length (x : FloatValue) : x.bitChars.length = x.width.bits + 2 := by
  have hbits := Width.bits_eq x.width
  simp only [bitChars_eq_groups, List.length_cons, List.length_append, groupChars_length]
  omega

theorem bitChars_sign (x : FloatValue) : x.bitChars[0]? = some (bitChar (x.seqBit 0)) := by
  rw [bitChars_eq_groups, List.getElem?_cons_zero]

theorem bitChars_separator_after_sign (x : FloatValue) : x.bitChars[1]? = some '_' := by
  rw [bitChars_eq_groups, List.getElem?_cons_succ, List.getElem?_cons_zero]

theorem bitChars_exponent (x : FloatValue) {k : Nat} (hk : k < x.width.expLen) :
    x.bitChars[k + 1 + 1]? = some (bitChar (x.seqBit (k + 1))) := by
  rw [bitChars_eq_groups, List.getElem?_cons_succ, List.getElem?_cons_succ, List.getElem?_append_left (by simpa using hk),
    groupChars_getElem? x 1 hk, Nat.add_comm 1 k]

/-- Past the exponent group stand its separator and the mantissa group. -/
theorem bitChars_past_exponent (x : FloatValue) (k : Nat) :
    x.bitChars[x.width.expLen + k + 2]? = ('_' :: x.groupChars (x.width.expLen + 1) x.width.mantLen)[k]? := by
  rw [bitChars_eq_groups, List.getElem?_cons_succ, List.getElem?_cons_succ, List.getElem?_append_right (by simp),
    groupChars_length, Nat.add_sub_cancel_left]

theorem bitChars_separator_after_exponent (x : FloatValue) : x.bitChars[x.width.expLen + 2]? = some '_' :=
  bitChars_past_exponent x 0

theorem bitChars_mantissa (x : FloatValue) {k : Nat} (hk : k < x.width.mantLen) :
    x.bitChars[x.width.expLen + k + 1 + 2]? = some (bitChar (x.seqBit (x.width.expLen + k + 1))) := by
  rw [Nat.add_assoc x.width.expLen, bitChars_past_exponent, List.getElem?_cons_succ, groupChars_getElem? x _ hk,
    Nat.add_assoc x.width.expLen 1, Nat.add_comm 1 k]

/-- The character of sequence index `i` stands past one separator in the exponent group and past two in the mantissa group. -/
theorem bitChars_of_seqIndex (x : FloatValue) {i : Nat} (hi : i < x.width.bits) :
    x.bitChars[i + (if i = 0 then 0 else if i ≤ x.width.expLen then 1 else 2)]? = some (bitChar (x.seqBit i)) := by
  cases i with
  | zero => exact bitChars_sign x
  | succ k =>
    rw [if_neg k.succ_ne_zero]
    split
    case isTrue hexp => exact bitChars_exponent x hexp
    case isFalse hmant =>
      obtain ⟨j, rfl⟩ := Nat.exists_eq_add_of_le (Nat.le_of_not_lt hmant)
      have hbits := Width.bits_eq x.width
      exact bitChars_mantissa x (by omega)

/-- Settles O30: the length and the separators stand in the list of characters, and `seqBit_eq` reads sequence index `i` as bit
position `W-1-i`. -/
theorem bitStringRendersEachGroup : Obligations.BitStringRendersEachGroup := by
  unfold Obligations.BitStringRendersEachGroup
  intro w p
  simp only [FloatValue.bitString, String.toList_ofList]
  refine ⟨bitChars_length ⟨w, p⟩, bitChars_separator_after_sign ⟨w, p⟩, bitChars_separator_after_exponent ⟨w, p⟩, fun i hi => ?_⟩
  rw [← bitChar_ofBool, ← seqBit_eq]
  exact bitChars_of_seqIndex ⟨w, p⟩ hi

end Sys2Proof.Machine
end

section
/-! Rows 3 and 4 of the order (43_totalorder.md, R224 and R225). An operand that is a NaN or infinite is not finite, so the first two
rows do not match: with a NaN the order is `orderNaN`, without one and with an infinity it is `orderInfinite`. -/

namespace Sys2Proof.Machine

open Sys2Proof.Claim

/-! ### The signed NaNs and infinities as arithmetic on the pattern -/

theorem sign_eq_minus_iff (w : Width) (p : BitVec w.bits) : FloatValue.sign ⟨w, p⟩ = .minus ↔ signOf w p.toNat = 1 := by
  rw [sign_eq]
  split <;> simp [*]

theorem sign_eq_plus_iff (w : Width) (p : BitVec w.bits) : FloatValue.sign ⟨w, p⟩ = .plus ↔ signOf w p.toNat = 0 := by
  have hlt := signOf_lt_two w p
  rw [sign_eq]
  split
  case isTrue hminus => simp [hminus]
  case isFalse hplus => exact iff_of_true rfl (by omega)

theorem isNegNaN_iff_sign (x : FloatValue) : x.isNegNaN = true ↔ x.isNaN = true ∧ x.sign = .minus := by
  rw [FloatValue.isNegNaN, Bool.and_eq_true, beq_iff_eq]

theorem isPosNaN_iff_sign (x : FloatValue) : x.isPosNaN = true ↔ x.isNaN = true ∧ x.sign = .plus := by
  rw [FloatValue.isPosNaN, Bool.and_eq_true, beq_iff_eq]

theorem isNegInf_iff_sign (x : FloatValue) : x.isNegInf = true ↔ x.isInfinite = true ∧ x.sign = .minus := by
  rw [FloatValue.isNegInf, Bool.and_eq_true, beq_iff_eq]

theorem isPosInf_iff_sign (x : FloatValue) : x.isPosInf = true ↔ x.isInfinite = true ∧ x.sign = .plus := by
  rw [FloatValue.isPosInf, Bool.and_eq_true, beq_iff_eq]

theorem isNegNaN_iff (w : Width) (p : BitVec w.bits) :
    FloatValue.isNegNaN ⟨w, p⟩ = true ↔ IsNaN w p.toNat ∧ signOf w p.toNat = 1 := by
  rw [isNegNaN_iff_sign, sign_eq_minus_iff, isNaN_eq, decide_eq_true_iff]

theorem isPosNaN_iff (w : Width) (p : BitVec w.bits) :
    FloatValue.isPosNaN ⟨w, p⟩ = true ↔ IsNaN w p.toNat ∧ signOf w p.toNat = 0 := by
  rw [isPosNaN_iff_sign, sign_eq_plus_iff, isNaN_eq, decide_eq_true_iff]

theorem isNegInf_iff (w : Width) (p : BitVec w.bits) :
    FloatValue.isNegInf ⟨w, p⟩ = true ↔ IsInfinite w p.toNat ∧ signOf w p.toNat = 1 := by
  rw [isNegInf_iff_sign, sign_eq_minus_iff, isInfinite_eq, decide_eq_true_iff]

theorem isPosInf_iff (w : Width) (p : BitVec w.bits) :
    FloatValue.isPosInf ⟨w, p⟩ = true ↔ IsInfinite w p.toNat ∧ signOf w p.toNat = 0 := by
  rw [isPosInf_iff_sign, sign_eq_plus_iff, isInfinite_eq, decide_eq_true_iff]

/-- The finite values are those that are neither infinite nor a NaN (R147, R148). -/
theorem isFinite_eq_not_infinite_or_nan (x : FloatValue) : x.isFinite = !(x.isInfinite || x.isNaN) := by
  obtain ⟨w, p⟩ := x
  rw [isFinite_eq, isInfinite_eq, isNaN_eq, ← Bool.decide_or, ← decide_not, decide_eq_decide]
  omega

/-! ### Which row applies -/

variable {x y : FloatValue}

theorem isFinite_and_eq_false (h : (x.isInfinite || x.isNaN) = true ∨ (y.isInfinite || y.isNaN) = true) :
    (x.isFinite && y.isFinite) = false := by
  rw [isFinite_eq_not_infinite_or_nan x, isFinite_eq_not_infinite_or_nan y]
  obtain h | h := h <;> simp [h]

theorem totalOrder_of_not_finite (h : (x.isInfinite || x.isNaN) = true ∨ (y.isInfinite || y.isNaN) = true) :
    totalOrder x y = if x.isNaN || y.isNaN then orderNaN x y else orderInfinite x y := by
  simp [totalOrder, isFinite_and_eq_false h]

theorem totalOrder_of_isNaN (h : x.isNaN = true ∨ y.isNaN = true) : totalOrder x y = orderNaN x y := by
  rw [totalOrder_of_not_finite (h.imp (by simp [·]) (by simp [·])), if_pos (by simpa using h)]

theorem totalOrder_of_isInfinite (hx : x.isNaN = false) (hy : y.isNaN = false)
    (h : x.isInfinite = true ∨ y.isInfinite = true) : totalOrder x y = orderInfinite x y := by
  rw [totalOrder_of_not_finite (h.imp (by simp [·]) (by simp [·])), if_neg (by simp [hx, hy])]

/-! ### Row 3, with a NaN -/

theorem isNaN_of_isNegNaN (h : x.isNegNaN = true) : x.isNaN = true := ((isNegNaN_iff_sign x).mp h).1

theorem isNaN_of_isPosNaN (h : x.isPosNaN = true) : x.isNaN = true := ((isPosNaN_iff_sign x).mp h).1

theorem sign_of_isNegNaN (h : x.isNegNaN = true) : x.sign = .minus := ((isNegNaN_iff_sign x).mp h).2

theorem sign_of_isPosNaN (h : x.isPosNaN = true) : x.sign = .plus := ((isPosNaN_iff_sign x).mp h).2

theorem isNegNaN_of_isPosNaN (h : x.isPosNaN = true) : x.isNegNaN = false := by
  simp [FloatValue.isNegNaN, sign_of_isPosNaN h]

theorem isPosNaN_of_isNegNaN (h : x.isNegNaN = true) : x.isPosNaN = false := by
  simp [FloatValue.isPosNaN, sign_of_isNegNaN h]

theorem totalOrder_negNaN_left (hx : x.isNegNaN = true) (hy : y.isNegNaN = false) : totalOrder x y = true := by
  rw [totalOrder_of_isNaN (.inl (isNaN_of_isNegNaN hx))]
  simp [orderNaN, hx, hy]

theorem totalOrder_negNaN_right (hy : y.isNegNaN = true) (hx : x.isNegNaN = false) : totalOrder x y = false := by
  rw [totalOrder_of_isNaN (.inr (isNaN_of_isNegNaN hy))]
  simp [orderNaN, hx, hy]

theorem totalOrder_posNaN_right (hy : y.isPosNaN = true) (hx : x.isPosNaN = false) : totalOrder x y = true := by
  rw [totalOrder_of_isNaN (.inr (isNaN_of_isPosNaN hy))]
  simp [orderNaN, hx, hy, isNegNaN_of_isPosNaN hy]

/-- A positive NaN is last: before it can only come what is first, a negative NaN, and that is on the right here. -/
theorem totalOrder_posNaN_left (hx : x.isPosNaN = true) (hy : y.isPosNaN = false) : totalOrder x y = false := by
  rw [totalOrder_of_isNaN (.inl (isNaN_of_isPosNaN hx))]
  simp [orderNaN, hx, hy, isNegNaN_of_isPosNaN hx]

theorem totalOrder_posNaNs (hx : x.isPosNaN = true) (hy : y.isPosNaN = true) :
    totalOrder x y = true ↔ x.magnitude ≤ y.magnitude := by
  rw [totalOrder_of_isNaN (.inl (isNaN_of_isPosNaN hx))]
  simp [orderNaN, hx, hy, isNegNaN_of_isPosNaN, sign_of_isPosNaN]

theorem totalOrder_negNaNs (hx : x.isNegNaN = true) (hy : y.isNegNaN = true) :
    totalOrder x y = true ↔ y.magnitude ≤ x.magnitude := by
  rw [totalOrder_of_isNaN (.inl (isNaN_of_isNegNaN hx))]
  simp [orderNaN, hx, hy, isPosNaN_of_isNegNaN, sign_of_isNegNaN]

/-- Settles O39: `totalOrder` goes through `orderNaN` when an operand is a NaN, and each clause is one of its branches. -/
theorem orderOfNaNs : Obligations.OrderOfNaNs := by
  unfold Obligations.OrderOfNaNs
  intro w p q
  simp only [← isNegNaN_iff, ← isPosNaN_iff, ← magnitude_eq, Bool.not_eq_true]
  exact ⟨totalOrder_negNaN_left, totalOrder_negNaN_right, totalOrder_posNaN_right, totalOrder_posNaN_left,
    totalOrder_posNaNs, totalOrder_negNaNs⟩

/-! ### Row 4, with an infinity and no NaN -/

theorem isInfinite_of_isNegInf (h : x.isNegInf = true) : x.isInfinite = true := ((isNegInf_iff_sign x).mp h).1

theorem isInfinite_of_isPosInf (h : x.isPosInf = true) : x.isInfinite = true := ((isPosInf_iff_sign x).mp h).1

theorem isNegInf_of_isPosInf (h : x.isPosInf = true) : x.isNegInf = false := by
  simp [FloatValue.isNegInf, ((isPosInf_iff_sign x).mp h).2]

theorem isInfinite_of_isFinite (h : x.isFinite = true) : x.isInfinite = false := by
  rw [isFinite_eq_not_infinite_or_nan, Bool.not_eq_true', Bool.or_eq_false_iff] at h
  exact h.1

theorem isNegInf_of_isFinite (h : x.isFinite = true) : x.isNegInf = false := by
  rw [FloatValue.isNegInf, isInfinite_of_isFinite h, Bool.false_and]

theorem isPosInf_of_isFinite (h : x.isFinite = true) : x.isPosInf = false := by
  rw [FloatValue.isPosInf, isInfinite_of_isFinite h, Bool.false_and]

theorem totalOrder_negInf_left (hnx : x.isNaN = false) (hny : y.isNaN = false) (hx : x.isNegInf = true) :
    totalOrder x y = true := by
  rw [totalOrder_of_isInfinite hnx hny (.inl (isInfinite_of_isNegInf hx))]
  simp [orderInfinite, hx]

theorem totalOrder_negInf_right (hnx : x.isNaN = false) (hny : y.isNaN = false) (hx : x.isNegInf = false)
    (hy : y.isNegInf = true) : totalOrder x y = false := by
  rw [totalOrder_of_isInfinite hnx hny (.inr (isInfinite_of_isNegInf hy))]
  simp [orderInfinite, hx, hy]

/-- Stated for every first operand: -Inf as well comes before +Inf. -/
theorem totalOrder_posInf_right (hnx : x.isNaN = false) (hny : y.isNaN = false) (hy : y.isPosInf = true) :
    totalOrder x y = true := by
  rw [totalOrder_of_isInfinite hnx hny (.inr (isInfinite_of_isPosInf hy))]
  simp [orderInfinite, hy, isNegInf_of_isPosInf hy]

theorem totalOrder_posInf_left (hnx : x.isNaN = false) (hny : y.isNaN = false) (hx : x.isPosInf = true)
    (hy : y.isFinite = true) : totalOrder x y = false := by
  rw [totalOrder_of_isInfinite hnx hny (.inl (isInfinite_of_isPosInf hx))]
  simp [orderInfinite, isNegInf_of_isPosInf hx, isNegInf_of_isFinite hy, isPosInf_of_isFinite hy]

/-- Settles O40: with an infinity and no NaN `totalOrder` goes through `orderInfinite`, and each clause is one of its branches. -/
theorem orderOfInfinities : Obligations.OrderOfInfinities := by
  unfold Obligations.OrderOfInfinities
  intro w p q hnp hnq
  have hx : FloatValue.isNaN ⟨w, p⟩ = false := by rw [isNaN_eq, decide_eq_false hnp]
  have hy : FloatValue.isNaN ⟨w, q⟩ = false := by rw [isNaN_eq, decide_eq_false hnq]
  simp only [← isNegInf_iff, ← isPosInf_iff, Bool.not_eq_true]
  refine ⟨totalOrder_negInf_left hx hy, totalOrder_negInf_right hx hy, fun _ => totalOrder_posInf_right hx hy,
    fun hp hfin => totalOrder_posInf_left hx hy hp ?_⟩
  rw [isFinite_eq, decide_eq_true hfin]

end Sys2Proof.Machine
end

section
/-! Errors (60_exceptions.md, R260 to R264): a command reports the first of its checks that applies, drives nothing else when it fails,
and leaves no trace for the next command. -/

namespace Sys2Proof.Machine

open Sys2Proof.Claim

/-! ### No trace of an earlier command (R263) -/

/-- Settles O9: the response of either step is that of the combinational function, which sees the command alone. -/
theorem earlierCommandLeavesNoTrace : Obligations.EarlierCommandLeavesNoTrace := by
  unfold Obligations.EarlierCommandLeavesNoTrace
  intro s c d rest h
  refine ⟨_, respond c, respond d, step_of_pending h, rfl, ?_, step_of_pending rfl⟩
  rw [step_of_pending rfl, List.append_assoc]
  rfl

/-! ### What a failed command drives (R262) -/

/-- Every command answers with the response of its outcome on the sample, and changes nothing else. -/
theorem exec_eq_next (i : Instr) (s : State) :
    exec i s = .next { s with responses := s.responses ++ [responseOf (outcomeOf i s.current)] } := by
  rw [exec_eq_complete, complete_eq_next]

theorem raiseError_eq_failure (e : CmdError) : raiseError e = failure e.code e.detail := rfl

theorem WellFormedAnswer.eq_failure {r : Response} (h : WellFormedAnswer r) (herr : r.err ≠ 0) : r = failure r.err r.einfo := by
  cases h with
  | record x | tuple x | bool b => simp at herr
  | error _ => exact raiseError_eq_failure _

/-- A response with an error drives nothing else, whether or not the command was well formed. -/
theorem responseOf_outcomeOf_eq_failure (i : Instr) (c : Command) (herr : (responseOf (outcomeOf i c)).err ≠ 0) :
    responseOf (outcomeOf i c) = failure (responseOf (outcomeOf i c)).err (responseOf (outcomeOf i c)).einfo := by
  cases h : i.wellFormed with
  | true => exact (wellFormedAnswer_outcomeOf h c).eq_failure herr
  | false =>
    rw [outcomeOf_of_not_wellFormed h]
    exact raiseError_eq_failure _

/-- Settles O48: the next state is `exec_eq_next`'s, and its new response drives only its error. -/
theorem failedCommandDrivesOnlyItsError : Obligations.FailedCommandDrivesOnlyItsError := by
  unfold Obligations.FailedCommandDrivesOnlyItsError
  exact fun i s => ⟨_, exec_eq_next i s, responseOf_outcomeOf_eq_failure i s.current⟩

/-! ### The first check of a list that applies (R264) -/

/-- The code and detail of the first check in a list that applies, `(0, 0)` where none does. -/
def firstApplicable (checks : List (Bool × BitVec 4 × BitVec 2)) : BitVec 4 × BitVec 2 :=
  ((checks.find? (·.1)).map (·.2)).getD (0, 0)

theorem firstError_eq (i : Instr) (c : Command) : firstError i c = firstApplicable (checksInOrder i c) := rfl

theorem firstApplicable_nil : firstApplicable [] = (0, 0) := rfl

@[simp] theorem firstApplicable_cons (bad : Bool) (report : BitVec 4 × BitVec 2) (checks : List (Bool × BitVec 4 × BitVec 2)) :
    firstApplicable ((bad, report) :: checks) = if bad then report else firstApplicable checks := by
  cases bad <;> rfl

theorem codeWidth_formatCode (w : Width) : codeWidth w.formatCode = (w.bits, w.expLen, w.mantLen) := by
  cases w <;> rfl

/-- The response of an outcome reports the first of the checks that applies. -/
def Reports (o : Except CmdError Response) (checks : List (Bool × BitVec 4 × BitVec 2)) : Prop :=
  ((responseOf o).err, (responseOf o).einfo) = firstApplicable checks

namespace Reports

variable {checks : List (Bool × BitVec 4 × BitVec 2)}

/-! One rule for each check a command makes, the check's row of R260 in front of the rows still to come. -/

theorem record (x : FloatValue) : Reports (pure (recordOut x)) [] := rfl
theorem tuple (x : FloatValue) : Reports (pure (tupleOut x)) [] := rfl
theorem bool (b : BitVec 1) : Reports (pure (boolOut b)) [] := rfl

theorem error (e : CmdError) : Reports (.error e) ((true, e.code, e.detail) :: checks) := rfl

/-- A check that does not apply leaves the report to the others. -/
theorem skip {o : Except CmdError Response} {bad : Bool} {report : BitVec 4 × BitVec 2} (hbad : bad = false)
    (h : Reports o checks) : Reports o ((bad, report) :: checks) := by
  subst hbad
  exact h

theorem raiseIf_bind {bad bad' : Bool} {e : CmdError} {k : Unit → Except CmdError Response} (hbad : bad = bad')
    (hk : Reports (k ()) checks) : Reports (raiseIf bad e >>= k) ((bad', e.code, e.detail) :: checks) := by
  subst hbad
  cases bad with
  | true => exact error e
  | false => exact skip rfl hk

theorem usedFormat_bind {f : FormatCode} {k : Width → Except CmdError Response}
    (hk : ∀ w : Width, f = w.formatCode → Reports (k w) checks) :
    Reports (usedFormat f >>= k) ((f == .reserved, 7, 0) :: checks) := by
  obtain ⟨w, hf, hw⟩ | ⟨rfl, hr⟩ := usedFormat_cases f
  · rw [hw, ok_bind]
    exact skip (by rw [hf]; cases w <;> rfl) (hk w hf)
  · rw [hr, error_bind]
    exact error .reservedEncoding

theorem usedOrder_bind {o : OrderCode} {k : ByteOrder → Except CmdError Response} (hk : ∀ b, Reports (k b) checks) :
    Reports (usedOrder o >>= k) ((o == .reserved101 || o == .reserved110 || o == .reserved111, 7, 0) :: checks) := by
  cases o with
  | native | nativeAligned | littleEndian | bigEndian | network => exact skip rfl (hk _)
  | reserved101 | reserved110 | reserved111 => exact error .reservedEncoding

theorem usedIndex_bind {f : FormatCode} {w : Width} {c : Command} {k : Nat → Except CmdError Response} (hf : f = w.formatCode)
    (hk : ∀ i, Reports (k i) checks) :
    Reports (usedIndex w c >>= k) ((decide ((codeWidth f).1 ≤ c.aux.toNat), 6, 0) :: checks) := by
  rw [hf, codeWidth_formatCode]
  rcases lt_or_ge c.aux.toNat w.bits with h | h
  · rw [usedIndex_of_lt h, ok_bind]
    exact skip (decide_eq_false (Nat.not_le.mpr h)) (hk _)
  · rw [usedIndex_of_le h, decide_eq_true h]
    exact error .indexError

/-- Both formats first, then that they agree (R230). -/
theorem comparedOperands_bind {fa fb : FormatCode} {c : Command} {k : FloatValue × FloatValue → Except CmdError Response}
    (hk : ∀ p, Reports (k p) checks) :
    Reports (comparedOperands fa fb c >>= k)
      ((fa == .reserved, 7, 0) :: (fb == .reserved, 7, 0) :: (fa != fb, 5, 0) :: checks) := by
  simp only [comparedOperands, bind_assoc]
  refine usedFormat_bind fun wa ha => usedFormat_bind fun wb hb => raiseIf_bind ?_ (hk _)
  subst ha hb
  cases wa <;> cases wb <;> rfl

end Reports

/-! ### The checks of each command are those of R264 -/

/-- A field of FROM_FIELDS overflows iff its value does not fit (R180). -/
theorem bitLength_overflow_eq (n k : Nat) : decide (bitLength n > k) = decide (2 ^ k ≤ n) := by
  rw [decide_eq_decide, gt_iff_lt, ← not_le, bitLength_le_iff, not_lt]

theorem reports_outcomeFromBytes (fa : FormatCode) (ord : OrderCode) (c : Command) :
    Reports (outcomeFromBytes fa ord c) (checksInOrder (.fromBytes fa ord) c) := by
  refine .usedFormat_bind fun w hf => .usedOrder_bind fun o => .raiseIf_bind ?_ (.record _)
  rw [hf, codeWidth_formatCode, bne_eq, decide_not, beq_eq_decide]

theorem reports_outcomeFromFields (fa : FormatCode) (c : Command) :
    Reports (outcomeFromFields fa c) (checksInOrder (.fromFields fa) c) := by
  refine .usedFormat_bind fun w hf => ?_
  rw [hf, codeWidth_formatCode]
  exact .raiseIf_bind rfl <| .raiseIf_bind (bitLength_overflow_eq ..) <| .raiseIf_bind (bitLength_overflow_eq ..) (.record _)

/-- Each command makes the checks of R264 in their order. -/
theorem reports_outcomeOf (i : Instr) (c : Command) : Reports (outcomeOf i c) (checksInOrder i c) := by
  cases i with
  | decode fa => exact .usedFormat_bind fun _ _ => .record _
  | fromNumeric ord => exact .usedOrder_bind fun _ => .record _
  | fromBytes fa ord => exact reports_outcomeFromBytes fa ord c
  | fromFields fa => exact reports_outcomeFromFields fa c
  | toFields fa => exact .usedFormat_bind fun _ _ => .tuple _
  | bitAt fa => exact .usedFormat_bind fun _ hf => .usedIndex_bind hf fun _ => .bool _
  | bitSet fa bv => exact .usedFormat_bind fun _ hf => .usedIndex_bind hf fun _ => .record _
  | bitFlip fa => exact .usedFormat_bind fun _ hf => .usedIndex_bind hf fun _ => .record _
  | totalOrder fa fb => exact .comparedOperands_bind fun _ => .bool _
  | totalOrderMag fa fb => exact .comparedOperands_bind fun _ => .bool _
  | reservedOp1011 low | reservedOp1215 low => exact .error .reservedEncoding

/-- Settles O47: the response of a command's outcome reports the first of its checks that applies. -/
theorem firstApplicableErrorIsReported : Obligations.FirstApplicableErrorIsReported := by
  unfold Obligations.FirstApplicableErrorIsReported
  intro i s
  refine ⟨_, exec_eq_next i s, ?_⟩
  rw [firstError_eq]
  exact reports_outcomeOf i s.current

/-! ### Which errors a command can raise (R261) -/

/-- The code reported is 0 or that of one of the checks. -/
theorem firstApplicable_code_mem (checks : List (Bool × BitVec 4 × BitVec 2)) :
    (firstApplicable checks).1 ∈ 0 :: checks.map (·.2.1) := by
  induction checks with
  | nil => simp [firstApplicable_nil]
  | cons check checks ih =>
    obtain ⟨bad, report⟩ := check
    cases bad with
    | true => simp
    | false =>
      simp only [firstApplicable_cons, List.map_cons, List.mem_cons] at ih ⊢
      exact ih.imp_right .inr

/-- The code in a command's response is 0 or that of one of its checks. -/
theorem exists_exec_err_mem (i : Instr) (s : State) : ∃ r,
    exec i s = .next { s with responses := s.responses ++ [r] } ∧ r.err ∈ 0 :: (checksInOrder i s.current).map (·.2.1) := by
  obtain ⟨r, hexec, hr⟩ := firstApplicableErrorIsReported i s
  have herr : r.err = (firstError i s.current).1 := congrArg Prod.fst hr
  refine ⟨r, hexec, ?_⟩
  rw [herr, firstError_eq]
  exact firstApplicable_code_mem _

/-- Settles O49: the checks of DECODE, TO_FIELDS and FROM_NUMERIC have code 7 only, those of the comparator 7, 7 and 5. -/
theorem commandsRaiseOnlyTheirErrors : Obligations.CommandsRaiseOnlyTheirErrors := by
  unfold Obligations.CommandsRaiseOnlyTheirErrors
  refine fun fa fb ord s => ⟨fun i hi => ?_, fun i hi => ?_⟩
  · obtain ⟨r, hexec, hr⟩ := exists_exec_err_mem i s
    have hcodes : (checksInOrder i s.current).map (·.2.1) = [7] := by
      simp only [List.mem_cons, List.not_mem_nil, or_false] at hi
      rcases hi with rfl | rfl | rfl <;> rfl
    exact ⟨r, hexec, by simpa [hcodes] using hr⟩
  · obtain ⟨r, hexec, hr⟩ := exists_exec_err_mem i s
    have hcodes : (checksInOrder i s.current).map (·.2.1) = [7, 7, 5] := by
      simp only [List.mem_cons, List.not_mem_nil, or_false] at hi
      rcases hi with rfl | rfl <;> rfl
    refine ⟨r, hexec, ?_⟩
    simp only [hcodes, List.mem_cons, List.not_mem_nil, or_false] at hr
    tauto

end Sys2Proof.Machine
end

section
/-! Every command terminates (70_reset_and_hazards.md, R296). -/

namespace Sys2Proof.Machine

/-- Settles O6: `exec` ends in `complete` for every instruction (`exec_eq_complete`), so a step with a command pending
always answers, and the one response it adds is the combinational function's (`step_of_pending`). -/
theorem everyCommandGivesExactlyOneResponse : Obligations.EveryCommandGivesExactlyOneResponse := by
  unfold Obligations.EveryCommandGivesExactlyOneResponse
  intro s c rest hpending
  exact ⟨respond c, step_of_pending hpending⟩

end Sys2Proof.Machine
end

section
/-! The encoding both ways (30_encoding.md, sections 1, 2, 4 and 6): the bits an opcode uses are OP and the fields its row of R67
lists, the encoder puts exactly those into the word, and the decoder reads them back. -/

namespace Sys2Proof

open Sys2Proof.Claim Sys2Proof.Machine

/-- Decoding the word of a command gives the command. -/
theorem decode_encode (i : Instr) : decode (encode i) = i := by
  cases i with
  | reservedOp1011 low => revert low; decide
  | reservedOp1215 low => revert low; decide
  | _ => simp [decode, encode, Instr.opcode]

/-! ### The used bits of a word (R67) -/

/-- A word with CMD[15:12] zero is put together from its fields (R61). -/
theorem eq_commandWord_of_reserved_zero {w : CmdWord} (h : w.extractLsb' 12 4 = 0) :
    w = commandWord (fieldBv w) (fieldOrd w) (fieldFb w) (fieldFa w) (fieldOp w) := by
  have hlt := w.isLt
  have htop : w.toNat / 4096 % 16 = 0 := by simpa [Nat.shiftRight_eq_div_pow] using congrArg BitVec.toNat h
  apply BitVec.eq_of_toNat_eq
  rw [commandWord_toNat, fieldOp_toNat, fieldFa_toNat, fieldFb_toNat, fieldOrd_toNat, fieldBv_toNat]
  omega

/-- The used bits are the whole of OP and of each used field. -/
theorem usedBits_eq_commandWord (op : Nat) :
    usedBits op = commandWord (if (usesOf op).bv then BitVec.allOnes 1 else 0) (if (usesOf op).ord then BitVec.allOnes 3 else 0)
      (if (usesOf op).fb then BitVec.allOnes 2 else 0) (if (usesOf op).fa then BitVec.allOnes 2 else 0) (BitVec.allOnes 4) := by
  simp only [usedBits]
  cases (usesOf op).bv <;> cases (usesOf op).ord <;> cases (usesOf op).fb <;> cases (usesOf op).fa <;> rfl

theorem and_mask {n : Nat} (x : BitVec n) (used : Bool) :
    x &&& (if used then BitVec.allOnes n else 0) = if used then x else 0 := by
  cases used <;> simp

theorem fieldOp_and (v w : CmdWord) : fieldOp (v &&& w) = fieldOp v &&& fieldOp w := BitVec.extractLsb'_and
theorem fieldFa_and (v w : CmdWord) : fieldFa (v &&& w) = fieldFa v &&& fieldFa w := BitVec.extractLsb'_and
theorem fieldFb_and (v w : CmdWord) : fieldFb (v &&& w) = fieldFb v &&& fieldFb w := BitVec.extractLsb'_and
theorem fieldOrd_and (v w : CmdWord) : fieldOrd (v &&& w) = fieldOrd v &&& fieldOrd w := BitVec.extractLsb'_and
theorem fieldBv_and (v w : CmdWord) : fieldBv (v &&& w) = fieldBv v &&& fieldBv w := BitVec.extractLsb'_and

/-- Masking with the used bits keeps OP and the used fields, every other bit being 0. -/
theorem and_usedBits (op : Nat) (w : CmdWord) : w &&& usedBits op =
    commandWord (if (usesOf op).bv then fieldBv w else 0) (if (usesOf op).ord then fieldOrd w else 0)
      (if (usesOf op).fb then fieldFb w else 0) (if (usesOf op).fa then fieldFa w else 0) (fieldOp w) := by
  have hreserved : (w &&& usedBits op).extractLsb' 12 4 = 0 := by
    rw [BitVec.extractLsb'_and, usedBits_eq_commandWord, Laws.EncodedFields.reserved_commandWord]
    exact BitVec.and_zero
  rw [eq_commandWord_of_reserved_zero hreserved, fieldBv_and, fieldOrd_and, fieldFb_and, fieldFa_and, fieldOp_and,
    usedBits_eq_commandWord]
  simp only [fieldOp_commandWord, fieldFa_commandWord, fieldFb_commandWord, fieldOrd_commandWord, fieldBv_commandWord, and_mask,
    BitVec.and_allOnes]

/-- Words that agree on the used bits have the same OP and the same used fields. -/
theorem agreeOnFields_of_and_usedBits_eq {op : Nat} {v w : CmdWord} (h : w &&& usedBits op = v &&& usedBits op) :
    fieldOp w = fieldOp v ∧ AgreeOnFields (usesOf op) v w := by
  rw [and_usedBits, and_usedBits] at h
  have hop := congrArg fieldOp h
  have hfa := congrArg fieldFa h
  have hfb := congrArg fieldFb h
  have hord := congrArg fieldOrd h
  have hbv := congrArg fieldBv h
  simp only [fieldOp_commandWord, fieldFa_commandWord, fieldFb_commandWord, fieldOrd_commandWord,
    fieldBv_commandWord] at hop hfa hfb hord hbv
  exact ⟨hop, fun hu => by simpa [hu] using hfa, fun hu => by simpa [hu] using hfb, fun hu => by simpa [hu] using hord,
    fun hu => by simpa [hu] using hbv⟩

/-! ### Decoding, then encoding -/

theorem encode_decode (w : CmdWord) : encode (decode w) = w &&& usedBits (fieldOp w).toNat := by
  have hlow : w.extractLsb' 0 2 = (fieldOp w).extractLsb' 0 2 := by
    apply BitVec.eq_of_toNat_eq
    simp [fieldOp]
  obtain ⟨n, hn, hop⟩ : ∃ n < 16, fieldOp w = BitVec.ofNat 4 n := ⟨_, (fieldOp w).isLt, by simp⟩
  rw [and_usedBits]
  simp only [decode, hlow, hop]
  -- the sixteen rows of the opcode map, each with the fields its row of R67 lists
  interval_cases n <;> simp [encode, Instr.opcode, usesOf]

/-- Settles O2: a word that agrees with `encode i` on the used bits decodes as `encode i` does, and that is to `i`. -/
theorem decodeAndEncodeAgree : Obligations.DecodeAndEncodeAgree := by
  unfold Obligations.DecodeAndEncodeAgree
  refine ⟨fun i w h => ?_, fun w => ?_⟩
  · obtain ⟨hop, hfields⟩ := agreeOnFields_of_and_usedBits_eq h
    have hi : fieldOp (encode i) = i.opcode := by cases i <;> exact fieldOp_commandWord ..
    rw [← hi] at hfields
    rw [decode_eq_of_agreeOnFields (congrArg BitVec.toNat hop) hfields, decode_encode]
  · rw [encode_decode, fieldOp_toNat]

/-! ### The rows of the opcode table -/

/-- A row that looks at OP alone covers a word as it covers the word's OP. -/
theorem covers_eq_covers_fieldOp {r : OpcodeRow} (hr : r.mask &&& 0x000F#16 = r.mask) (w : CmdWord) :
    r.covers w = r.covers ((fieldOp w).setWidth 16) := by
  have hop : (fieldOp w).setWidth 16 = w &&& 0x000F#16 := by
    apply BitVec.eq_of_toNat_eq
    rw [BitVec.toNat_setWidth, fieldOp_toNat, BitVec.toNat_and]
    exact (Nat.mod_eq_of_lt (by omega)).trans (Nat.and_two_pow_sub_one_eq_mod w.toNat 4).symm
  rw [OpcodeRow.covers, OpcodeRow.covers, hop, BitVec.and_assoc, BitVec.and_comm 0x000F#16, hr]

/-- Every row of the table looks at OP alone (R65). -/
theorem mask_of_mem_opcodeTable : ∀ r ∈ opcodeTable, r.mask &&& 0x000F#16 = r.mask := by decide

/-- The opcode of a command is in its own row and in no other. -/
theorem rows_covering_opcode (i : Instr) :
    (opcodeTable.filter (·.covers (i.opcode.setWidth 16))).map (·.mnemonic) = [i.mnemonic] := by
  cases i with
  | reservedOp1011 low => revert low; decide
  | reservedOp1215 low => revert low; decide
  | _ =>
    simp only [Instr.opcode, Instr.mnemonic]
    decide

/-- Settles O3: the rows that cover a word are those that cover its OP, and its OP is the opcode of the command it decodes to. -/
theorem eachWordIsInExactlyOneOpcodeRow : Obligations.EachWordIsInExactlyOneOpcodeRow := by
  unfold Obligations.EachWordIsInExactlyOneOpcodeRow
  intro w
  rw [List.filter_congr fun r hr => covers_eq_covers_fieldOp (mask_of_mem_opcodeTable r hr) w, ← decode_opcode]
  exact rows_covering_opcode (decode w)

/-! ### The assembler (R76, R77) -/

/-- The sum of R76 puts each field at its place. -/
theorem asmWord_eq_commandWord (bv : BitVec 1) (ord : BitVec 3) (fb fa : BitVec 2) (op : BitVec 4) :
    asmWord op.toNat fa.toNat fb.toNat ord.toNat bv.toNat = commandWord bv ord fb fa op := by
  apply BitVec.eq_of_toNat_eq
  rw [asmWord, BitVec.toNat_ofNat, ← commandWord_toNat]
  exact Nat.mod_eq_of_lt (commandWord bv ord fb fa op).isLt

theorem Width.code_eq_formatCodeBits (w : Width) : w.code = formatCodeBits w.formatCode := by
  cases w <;> rfl

@[simp] theorem Width.formatCode_defined (w : Width) : w.formatCode.defined = true := by
  cases w <;> rfl

/-- The suffixes name the defined codes. -/
theorem OrderSuffix.orderCode_defined (o : OrderSuffix) : o.orderCode.defined = true := by
  cases o <;> rfl

/-- The sample of a form holds the word of its command. -/
theorem assemble_cmd (a : Asm) : a.assemble.cmd = encode a.instr := by
  cases a <;> simp [Asm.assemble, Asm.instr, encode, Instr.opcode, Width.code_eq_formatCodeBits, ← asmWord_eq_commandWord]

/-- A form is written with defined codes only. -/
theorem instr_wellFormed (a : Asm) : a.instr.wellFormed = true := by
  cases a <;> simp [Asm.instr, Instr.wellFormed, Instr.opcodeDefined, Instr.formatsDefined, Instr.orderDefined,
    OrderSuffix.orderCode_defined]

/-- Settles O4: the sum of R76 is the encoder's word, which decodes to the command. -/
theorem assembledWordDecodesToItsCommand : Obligations.AssembledWordDecodesToItsCommand := by
  unfold Obligations.AssembledWordDecodesToItsCommand
  intro a
  refine ⟨?_, assemble_cmd a, instr_wellFormed a⟩
  rw [assemble_cmd, decode_encode]

/-! ### Words written out -/

/-- Settles O1: each of the twelve words is decoded field by field. -/
theorem wordsOfTheOpcodeMapDecode : Obligations.WordsOfTheOpcodeMapDecode := by
  unfold Obligations.WordsOfTheOpcodeMapDecode
  decide

end Sys2Proof
end

section
/-! Steps and runs (20_memory.md, 70_reset_and_hazards.md): a step answers the oldest pending command with the combinational function,
so a run answers them all in order, and reset leaves nothing that a later response could depend on. -/

namespace Sys2Proof.Machine

/-- A step is the meaning of the decoded word, run on the sample (R49, R60). -/
theorem step_eq_exec {s : State} {c : Command} {rest : List Command} (h : s.pending = c :: rest) :
    step s = exec (decode c.cmd) { current := c, pending := rest, responses := s.responses } := by
  rw [step, h]
  rfl

/-- Settles O5: the word of an encoded command is decoded to that command. -/
theorem stepRunsTheDecodedCommand : Obligations.StepRunsTheDecodedCommand := by
  unfold Obligations.StepRunsTheDecodedCommand
  refine ⟨fun s c rest h => step_eq_exec h, fun s i c rest h hc => ?_, fun s h => step_of_idle h⟩
  rw [step_eq_exec h, hc, decode_encode]

/-- Settles O8: the last response is the combinational function's, which sees the command alone. -/
theorem responseDependsOnTheCommandAlone : Obligations.ResponseDependsOnTheCommandAlone := by
  unfold Obligations.ResponseDependsOnTheCommandAlone
  exact fun s t c rest rest' hs ht => ⟨respond c, lastResponse_step_of_pending hs, lastResponse_step_of_pending ht⟩

/-- A run begins with the step of its oldest command. -/
theorem run_succ_of_pending {s : State} {c : Command} {rest : List Command} (h : s.pending = c :: rest) (k : Nat) :
    Host.Core.run core (k + 1) s =
      Host.Core.run core k { current := c, pending := rest, responses := s.responses ++ [respond c] } := by
  have hstep : core.step s = .next { current := c, pending := rest, responses := s.responses ++ [respond c] } :=
    step_of_pending h
  simp only [Host.Core.run, hstep]

/-- Settles O7, by induction on the pending commands: each step answers the first of them and leaves the others. -/
theorem runAnswersAllPendingCommandsInOrder : Obligations.RunAnswersAllPendingCommandsInOrder := by
  unfold Obligations.RunAnswersAllPendingCommandsInOrder
  rintro ⟨current, pending, responses⟩
  induction pending generalizing current responses with
  | nil => simp [Host.Core.run]
  | cons c rest ih =>
    rw [List.length_cons, run_succ_of_pending rfl, ih]
    simp [List.getLast?_cons]

/-- Settles O14: after a reset the one command presented is the oldest pending one. -/
theorem resetAbandonsPendingCommands : Obligations.ResetAbandonsPendingCommands := by
  unfold Obligations.ResetAbandonsPendingCommands
  exact fun s c => ⟨s.assertReset_pending, s.assertReset_responses, step_of_pending rfl, step_of_pending rfl⟩

/-- No response has left after reset, so every one that has is legal. -/
theorem inv_reset : State.reset.Inv := by
  intro r hr
  simp at hr

/-- Settles O13: the fields of `State.reset`, and a step with nothing pending. -/
theorem resetStateIsLegalAndIdle : Obligations.ResetStateIsLegalAndIdle := by
  unfold Obligations.ResetStateIsLegalAndIdle
  exact ⟨inv_reset, State.reset_pending, State.reset_responses, rfl, step_of_idle State.reset_pending⟩

end Sys2Proof.Machine
end

section
/-! Every response is legal (30_encoding.md, section 5; 41_classifier.md, section 2; 60_exceptions.md): one proof for each of the three
output groups and one for an error, and every command answers with one of these. -/

namespace Sys2Proof.Machine

open Sys2Proof.Claim

/-! ### Exactly one category (41_classifier.md, section 2) -/

theorem not_allExponentBits_zero_and_one (x : FloatValue) : (x.allExponentBitsZero && x.allExponentBitsOne) = false := by
  obtain ⟨w, p⟩ := x
  have hmax := two_le_expMax w
  rw [← Bool.not_eq_true, Bool.and_eq_true, allExponentBitsZero_iff, allExponentBitsOne_iff]
  omega

/-- Settles O31: exponent bits that are not both all 0 and all 1 leave six cases of the three field predicates, and in each of them
one category holds. -/
theorem exactlyOneCategory : Obligations.ExactlyOneCategory := by
  unfold Obligations.ExactlyOneCategory
  intro x
  have hexp := not_allExponentBits_zero_and_one x
  simp only [FloatValue.isNormal, FloatValue.isZero, FloatValue.isSubnormal, FloatValue.isInfinite, FloatValue.isNaN]
  revert hexp
  generalize x.allExponentBitsZero = z
  generalize x.allExponentBitsOne = o
  generalize x.mantissaAllZero = m
  revert z o m
  decide

/-! ### The record -/

/-- Bits 0 to 4 of RESP.CLASS are the five categories (R73). -/
theorem classFlags_categories (x : FloatValue) : x.classFlags.extractLsb' 0 5 =
    BitVec.ofBoolListLE [x.isZero, x.isSubnormal, x.isNormal, x.isInfinite, x.isNaN] := by
  apply BitVec.eq_of_getLsbD_eq
  intro k hk
  simp only [FloatValue.classFlags, BitVec.getLsbD_extractLsb', BitVec.getLsbD_ofBoolListLE]
  interval_cases k <;> rfl

theorem one_hot_mem : ∀ a b c d e : Bool, ([a, b, c, d, e].filter id).length = 1 →
    BitVec.ofBoolListLE [a, b, c, d, e] ∈ [1#5, 2#5, 4#5, 8#5, 16#5] := by
  decide

theorem classFlags_one_category (x : FloatValue) : x.classFlags.extractLsb' 0 5 ∈ [1#5, 2#5, 4#5, 8#5, 16#5] := by
  rw [classFlags_categories]
  exact one_hot_mem _ _ _ _ _ (exactlyOneCategory x).1

theorem classFlags_ne_zero (x : FloatValue) : x.classFlags ≠ 0 := by
  intro h
  have hmem := classFlags_one_category x
  rw [h] at hmem
  exact absurd hmem (by decide)

theorem MantissaValue.kind_ne_three (m : MantissaValue) : m.kind ≠ 3 := by
  cases m <;> simp [MantissaValue.kind]

/-- A sentinel comes with numerator and scale 0 (R75). -/
theorem MantissaValue.out_eq_zero_of_kind_ne_zero {m : MantissaValue} (h : m.kind ≠ 0) : m.numOut = 0 ∧ m.scaleOut = 0 := by
  cases m with
  | finite num scale => exact absurd rfl h
  | plusInf | nan => exact ⟨rfl, rfl⟩

theorem Width.code_ne_three (w : Width) : w.code ≠ 3 := by
  cases w <;> decide

theorem Width.code_injective : Function.Injective Width.code := by
  intro w v
  cases w <;> cases v <;> decide

theorem err_zero_produced : (0#4).toNat ≤ 7 ∧ 0#4 ≠ 1 := by decide
theorem fmt_zero_defined : 0#2 ≠ 3 := by decide
theorem bool_zero_ne_one : 0#1 ≠ 1 := by decide

/-- The outputs of a record fit the width its format names, and its pattern is its fields put together (R72, R100). -/
theorem legal_recordOut (x : FloatValue) : (recordOut x).Legal := by
  obtain ⟨w, p⟩ := x
  have hspec := recordOut_spec w p
  refine
    { errProduced := err_zero_produced
      detailOnlyForOverflow := .inl rfl
      failedDrivesNothing := fun h => absurd rfl h
      fmtDefined := Width.code_ne_three w
      booleanAlone := fun h => absurd h bool_zero_ne_one
      kindDefined := MantissaValue.kind_ne_three _
      sentinelEmpty := MantissaValue.out_eq_zero_of_kind_ne_zero
      oneCategory := fun _ => classFlags_one_category _
      recordOrNothing := fun h => absurd h (classFlags_ne_zero _)
      fieldsFit := fun v hv => ?_, bitsAreFields := fun v _ hv => ?_, signFlag := fun _ => ?_, exponentRange := ?_ }
  · obtain rfl := Width.code_injective hv
    rw [hspec.bits, hspec.exp, hspec.mant]
    exact ⟨p.isLt, expOf_lt .., fracOf_lt ..⟩
  · obtain rfl := Width.code_injective hv
    rw [hspec.bits, hspec.sign, hspec.exp, hspec.mant]
    exact pattern_eq_fields ..
  · rw [hspec.minus, ← hspec.sign, beq_eq_decide, decide_eq_decide]
    exact BitVec.toNat_inj (y := 1#1)
  · exact (unbiasedExponentCode_toInt w p).symm ▸ unbiasedExponent_range w p

/-! ### Responses without a record -/

/-- The outputs that only a record drives are 0 (R71). -/
def Response.NoRecord (r : Response) : Prop :=
  r = { r with bits := 0, cls := 0, bias := 0, uexp := 0, mkind := 0, mnum := 0, mscale := 0 }

/-- Without a record there is legality to see to in the error, the format, the Boolean and the lengths of two fields only. -/
theorem Response.NoRecord.legal {r : Response} (h : r.NoRecord) (herr : r.err.toNat ≤ 7 ∧ r.err ≠ 1)
    (hdetail : r.einfo = 0 ∨ (r.err = 3 ∧ r.einfo = 1))
    (hfailed : r.err ≠ 0 → r = { Response.zero with err := r.err, einfo := r.einfo }) (hfmt : r.fmt ≠ 3)
    (hbool : r.bool = 1 → r = { Response.zero with bool := 1 })
    (hfit : ∀ w : Width, r.fmt = w.code → r.exp.toNat < 2 ^ w.expLen ∧ r.mant.toNat < 2 ^ w.mantLen) : r.Legal := by
  have hcls : r.cls = 0 := by rw [h]
  have hkind : r.mkind = 0 := by rw [h]
  refine
    { errProduced := herr, detailOnlyForOverflow := hdetail, failedDrivesNothing := hfailed, fmtDefined := hfmt
      booleanAlone := hbool, kindDefined := by rw [hkind]; decide, sentinelEmpty := fun hs => absurd hkind hs
      oneCategory := fun hr => absurd hcls hr, recordOrNothing := fun _ => ?_, fieldsFit := fun w hw => ⟨?_, hfit w hw⟩
      bitsAreFields := fun _ hr => absurd hcls hr, signFlag := fun hr => absurd hcls hr, exponentRange := ?_ }
  all_goals rw [h]
  · exact ⟨rfl, rfl, rfl, rfl, rfl, rfl⟩
  · exact Nat.two_pow_pos _
  · exact (by decide : -1022 ≤ (0#12).toInt ∧ (0#12).toInt ≤ 1024)

theorem legal_tupleOut (x : FloatValue) : (tupleOut x).Legal := by
  obtain ⟨w, p⟩ := x
  obtain ⟨-, hexp, hmant, -⟩ := tupleOut_spec w p
  refine Response.NoRecord.legal rfl err_zero_produced (.inl rfl) (fun h => absurd rfl h) (Width.code_ne_three w)
    (fun h => absurd h bool_zero_ne_one) fun v hv => ?_
  obtain rfl := Width.code_injective hv
  rw [hexp, hmant]
  exact ⟨expOf_lt .., fracOf_lt ..⟩

/-- A response with no field of a tuple has nothing that a width could be too short for. -/
theorem legal_boolOut (b : BitVec 1) : (boolOut b).Legal := by
  refine Response.NoRecord.legal rfl err_zero_produced (.inl rfl) (fun h => absurd rfl h) fmt_zero_defined (fun h => ?_)
    fun w _ => ⟨Nat.two_pow_pos _, Nat.two_pow_pos _⟩
  obtain rfl : b = 1 := h
  rfl

/-- Every error of R260 but ParseError, which is never produced, gives a legal response. -/
theorem legal_raiseError {e : CmdError} (he : e.code ≠ 1) : (raiseError e).Legal := by
  refine Response.NoRecord.legal rfl ⟨?_, he⟩ ?_ (fun _ => rfl) fmt_zero_defined (fun h => absurd h bool_zero_ne_one)
    fun w _ => ⟨Nat.two_pow_pos _, Nat.two_pow_pos _⟩
  · cases e <;> simp [CmdError.code]
  · cases e with
    | overflow field =>
      cases field with
      | exponent => exact .inl rfl
      | mantissa => exact .inr ⟨rfl, rfl⟩
    | _ => exact .inl rfl

/-! ### Every command -/

/-- No check of R264 reports code 1. -/
theorem outcomeOf_err_ne_one (i : Instr) (c : Command) : (responseOf (outcomeOf i c)).err ≠ 1 := by
  have hcode := firstApplicable_code_mem (checksInOrder i c)
  rw [← reports_outcomeOf i c] at hcode
  intro h
  rw [h] at hcode
  cases i <;> simp [checksInOrder] at hcode

theorem WellFormedAnswer.legal {r : Response} (h : WellFormedAnswer r) (herr : r.err ≠ 1) : r.Legal := by
  cases h with
  | record x => exact legal_recordOut x
  | tuple x => exact legal_tupleOut x
  | bool b => exact legal_boolOut b
  | error _ => exact legal_raiseError herr

theorem legal_responseOf_outcomeOf (i : Instr) (c : Command) : (responseOf (outcomeOf i c)).Legal := by
  cases h : i.wellFormed with
  | true => exact (wellFormedAnswer_outcomeOf h c).legal (outcomeOf_err_ne_one i c)
  | false =>
    rw [outcomeOf_of_not_wellFormed h]
    exact legal_raiseError (by decide)

/-- Settles O12: a step adds no response, or that of a command, which is legal whatever the state. -/
theorem stepKeepsResponsesLegal : Obligations.StepKeepsResponsesLegal := by
  unfold Obligations.StepKeepsResponsesLegal
  intro s t hinv hstep
  cases hp : s.pending with
  | nil =>
    obtain rfl : s = t := by simpa [step_of_idle hp] using hstep
    exact hinv
  | cons c rest =>
    rw [step_of_pending hp] at hstep
    obtain rfl := Host.Outcome.next.inj hstep
    intro r hr
    rcases List.mem_append.mp hr with hold | hnew
    · exact hinv r hold
    · rw [List.mem_singleton.mp hnew]
      exact legal_responseOf_outcomeOf ..

end Sys2Proof.Machine
end

section
/-! Results of the commands with a pattern operand or a buffer (40_bitdecoder.md): each width's command reduces to its output group, and
the group is the record of the pattern as a number. -/

namespace Sys2Proof.Machine

open Sys2Proof.Claim

/-! ### The answer a command completes with -/

theorem exec_of_ok {i : Instr} {s : State} {r : Response} (h : outcomeOf i s.current = .ok r) :
    exec i s = .next { s with responses := s.responses ++ [r] } := by
  rw [exec_eq_next, h, responseOf_ok]

theorem exec_of_error {i : Instr} {s : State} {e : CmdError} (h : outcomeOf i s.current = .error e) :
    exec i s = .next { s with responses := s.responses ++ [failure e.code e.detail] } := by
  rw [exec_eq_next, h, responseOf_error, raiseError_eq_failure]

/-- The response to an assembler form is the outcome of the command it is written for. -/
theorem respond_assemble (a : Asm) : respond a.assemble = responseOf (outcomeOf a.instr a.assemble) := by
  rw [respond, (assembledWordDecodesToItsCommand a).1]

/-! ### Pattern operands -/

theorem floatValue_eq_of_toNat_eq {w : Width} {p q : BitVec w.bits} (h : p.toNat = q.toNat) :
    (⟨w, p⟩ : FloatValue) = ⟨w, q⟩ := by
  rw [BitVec.eq_of_toNat_eq h]

theorem patternOperand_congr {w : Width} {a b : Port} (h : a.toNat % 2 ^ w.bits = b.toNat % 2 ^ w.bits) :
    patternOperand w a = patternOperand w b :=
  floatValue_eq_of_toNat_eq (by rwa [setWidth_port_toNat, setWidth_port_toNat])

theorem recordSpec_of_toNat_eq {w : Width} {p : BitVec w.bits} {n : Nat} (h : p.toNat = n) :
    RecordSpec w n (recordOut ⟨w, p⟩) := by
  rw [← h]
  exact recordOut_spec ..

/-- The record of a port's pattern is that of its low W bits as a number (R66, R71). -/
theorem recordSpec_patternOperand (w : Width) (a : Port) :
    RecordSpec w (a.toNat % 2 ^ w.bits) (recordOut (patternOperand w a)) :=
  recordSpec_of_toNat_eq (setWidth_port_toNat w a)

theorem outcomeDecode_formatCode (w : Width) (c : Command) :
    outcomeDecode w.formatCode c = .ok (recordOut (patternOperand w c.opa)) := by
  rw [outcomeDecode, usedFormat_formatCode]
  rfl

/-- Settles O11: each of the seven meanings takes the ports through `patternOperand` and the index alone. -/
theorem portBitsAboveTheWidthAreIgnored : Obligations.PortBitsAboveTheWidthAreIgnored := by
  unfold Obligations.PortBitsAboveTheWidthAreIgnored
  intro w v s c d haux hopa hopb i hi
  have ha := patternOperand_congr hopa
  have hb := patternOperand_congr hopb
  suffices h : outcomeOf i c = outcomeOf i d by
    refine ⟨responseOf (outcomeOf i c), ?_, ?_⟩
    · rw [exec_eq_complete, lastResponse_complete]
    · rw [exec_eq_complete, lastResponse_complete, h]
  simp only [List.mem_cons, List.not_mem_nil, or_false] at hi
  rcases hi with rfl | rfl | rfl | rfl | rfl | rfl | rfl
  · simp only [outcomeOf, outcomeDecode_formatCode, ha]
  · simp only [outcomeOf, outcomeToFields, usedFormat_formatCode, ok_bind, ha]
  · simp only [outcomeOf, outcomeBitAt, usedFormat_formatCode, ok_bind, usedIndex, haux, ha]
  · simp only [outcomeOf, outcomeBitSet, usedFormat_formatCode, ok_bind, usedIndex, haux, ha]
  · simp only [outcomeOf, outcomeBitFlip, usedFormat_formatCode, ok_bind, usedIndex, haux, ha]
  · simp only [outcomeOf, outcomeTotalOrder, comparedOperands_same, ha, hb]
  · simp only [outcomeOf, outcomeTotalOrderMag, comparedOperands_same, ha, hb]

/-- Settles O15: DECODE of a defined format answers with the record of its pattern operand. -/
theorem decodeGivesTheRecordOfItsOperand : Obligations.DecodeGivesTheRecordOfItsOperand := by
  unfold Obligations.DecodeGivesTheRecordOfItsOperand
  exact fun w s => ⟨_, exec_of_ok (outcomeDecode_formatCode w s.current), recordSpec_patternOperand w s.current.opa⟩

/-! ### Byte buffers -/

theorem outcomeFromBytes_of_length {w : Width} {ord : OrderCode} {o : ByteOrder} {c : Command} (ho : usedOrder ord = .ok o)
    (h : c.aux.toNat * 8 = w.bits) : outcomeFromBytes w.formatCode ord c =
      .ok (recordOut ⟨w, patternOfBuffer w o (byteLanes (w.bits / 8) c.opa)⟩) := by
  simp only [outcomeFromBytes, usedFormat_formatCode, ho, ok_bind, raiseIf_of_not (not_not.mpr h), pure_eq]

theorem outcomeFromBytes_of_length_ne {w : Width} {ord : OrderCode} {o : ByteOrder} {c : Command} (ho : usedOrder ord = .ok o)
    (h : c.aux.toNat * 8 ≠ w.bits) : outcomeFromBytes w.formatCode ord c = .error .lengthMismatch := by
  simp only [outcomeFromBytes, usedFormat_formatCode, ho, ok_bind, raiseIf_of h, error_bind]

/-- Settles O16: the length decides between the record of the buffer's pattern and LengthMismatchError. -/
theorem fromBytesResult : Obligations.FromBytesResult := by
  unfold Obligations.FromBytesResult
  intro w ord o s ho
  refine ⟨fun h => ⟨_, exec_of_ok (outcomeFromBytes_of_length ho h), recordSpec_of_toNat_eq ?_⟩,
    fun h => exec_of_error (e := .lengthMismatch) (outcomeFromBytes_of_length_ne ho h)⟩
  cases o with
  | little => exact patternOfBuffer_little_toNat w s.current.opa
  | big => exact patternOfBuffer_big_toNat w s.current.opa

/-- A little-endian buffer of W/8 bytes is a pattern operand (R110, R111). -/
theorem patternOfBuffer_little (w : Width) (a : Port) :
    (⟨w, patternOfBuffer w .little (byteLanes (w.bits / 8) a)⟩ : FloatValue) = patternOperand w a :=
  floatValue_eq_of_toNat_eq ((patternOfBuffer_little_toNat w a).trans (setWidth_port_toNat w a).symm)

/-- Settles O21: both answer with the record of the same FloatValue. -/
theorem decodeEqualsLittleEndianFromBytes : Obligations.DecodeEqualsLittleEndianFromBytes := by
  unfold Obligations.DecodeEqualsLittleEndianFromBytes
  intro w a
  have hlen : (BitVec.ofNat 8 (w.bits / 8)).toNat * 8 = w.bits := by cases w <;> rfl
  have hbytes := outcomeFromBytes_of_length (w := w) (ord := .littleEndian) (o := .little)
    (c := (Asm.fromBytes w .le a (BitVec.ofNat 8 (w.bits / 8))).assemble) rfl hlen
  rw [respond_assemble, respond_assemble]
  exact congrArg responseOf ((outcomeDecode_formatCode w _).trans (hbytes.trans (by rw [← patternOfBuffer_little]; rfl)).symm)

/-! ### Packed values -/

theorem snap_eq_w16_iff (rw : Nat) : snap rw = .w16 ↔ rw < 32 := by
  unfold snap
  split
  · simp [*]
  · split <;> simp [*]

theorem snap_eq_w32_iff (rw : Nat) : snap rw = .w32 ↔ 32 ≤ rw ∧ rw < 63 := by
  unfold snap
  split
  · simp only [reduceCtorEq, false_iff]
    omega
  · split <;> simp <;> omega

theorem outcomeFromNumeric_of_order {ord : OrderCode} {o : ByteOrder} (ho : usedOrder ord = .ok o) (c : Command) :
    outcomeFromNumeric ord c =
      .ok (recordOut ⟨snap c.aux.toNat, permute (snap c.aux.toNat) (pack c.opa (snap c.aux.toNat)) o⟩) := by
  rw [outcomeFromNumeric, ho, ok_bind]
  rfl

/-- Settles O17: the width is the snapped one, and the pattern of the record is the packed value, permuted. -/
theorem fromNumericResult : Obligations.FromNumericResult := by
  unfold Obligations.FromNumericResult
  intro ord o s ho
  refine ⟨_, _, snap_eq_w16_iff _, snap_eq_w32_iff _, exec_of_ok (outcomeFromNumeric_of_order ho s.current),
    recordSpec_of_toNat_eq ?_⟩
  generalize snap s.current.aux.toNat = w
  cases o with
  | big => cases w <;> rfl
  | little =>
    rw [permute_little_toNat]
    cases w <;> rfl

/-- A byte moved to the mirrored place twice is back at its place. -/
theorem permute_little_twice (w : Width) (q : BitVec w.bits) : permute w (permute w q .little) .little = q := by
  apply BitVec.eq_of_getLsbD_eq
  intro k hk
  obtain ⟨j, b, hb, rfl⟩ : ∃ j b, b < 8 ∧ k = 8 * j + b := ⟨k / 8, k % 8, by omega, by omega⟩
  have hbytes : w.bits = 8 * (w.bits / 8) := by cases w <;> rfl
  have hj : j < w.bits / 8 := by omega
  have hplace : w.bits - 8 - 8 * j = 8 * (w.bits / 8 - 1 - j) := by omega
  rw [permute_little_getLsbD w _ hj hb, hplace, permute_little_getLsbD w q (by omega) hb]
  congr 1
  omega

/-- Settles O20: BIG moves nothing, and LITTLE moves each byte there and back. -/
theorem permutingTwiceGivesThePatternBack : Obligations.PermutingTwiceGivesThePatternBack := by
  unfold Obligations.PermutingTwiceGivesThePatternBack
  intro w q o
  cases o with
  | big => rfl
  | little => exact permute_little_twice w q

end Sys2Proof.Machine
end

section
/-! Results of FROM_FIELDS, TO_FIELDS and the bit commands (42_floatvalue.md), and of the pseudo-instruction abs (R77, R221). -/

namespace Sys2Proof.Machine

open Sys2Proof.Claim

/-! ### FROM_FIELDS and TO_FIELDS (R180, R181) -/

section FromFields

variable {w : Width} {c : Command}

theorem outcomeFromFields_of_fits (hs : c.opa.toNat ≤ 1) (he : c.opb.toNat < 2 ^ w.expLen) (hf : c.opc.toNat < 2 ^ w.mantLen) :
    outcomeFromFields w.formatCode c =
      .ok (recordOut ⟨w, joinFields w (c.opa.setWidth 1) (c.opb.setWidth w.expLen) (c.opc.setWidth w.mantLen)⟩) := by
  have he' := (bitLength_le_iff _ _).mpr he
  have hf' := (bitLength_le_iff _ _).mpr hf
  simp only [outcomeFromFields, usedFormat_formatCode, ok_bind, raiseIf_of_not (Nat.not_lt.mpr hs),
    raiseIf_of_not (Nat.not_lt.mpr he'), raiseIf_of_not (Nat.not_lt.mpr hf'), pure_eq]

theorem outcomeFromFields_of_sign (hs : 1 < c.opa.toNat) : outcomeFromFields w.formatCode c = .error .valueError := by
  simp only [outcomeFromFields, usedFormat_formatCode, ok_bind, raiseIf_of hs, error_bind]

theorem outcomeFromFields_of_exponent (hs : c.opa.toNat ≤ 1) (he : 2 ^ w.expLen ≤ c.opb.toNat) :
    outcomeFromFields w.formatCode c = .error (.overflow .exponent) := by
  have he' : w.expLen < bitLength c.opb.toNat := Nat.not_le.mp fun h => Nat.not_lt.mpr he ((bitLength_le_iff _ _).mp h)
  simp only [outcomeFromFields, usedFormat_formatCode, ok_bind, raiseIf_of_not (Nat.not_lt.mpr hs), raiseIf_of he', error_bind]

theorem outcomeFromFields_of_mantissa (hs : c.opa.toNat ≤ 1) (he : c.opb.toNat < 2 ^ w.expLen)
    (hf : 2 ^ w.mantLen ≤ c.opc.toNat) : outcomeFromFields w.formatCode c = .error (.overflow .mantissa) := by
  have he' := (bitLength_le_iff _ _).mpr he
  have hf' : w.mantLen < bitLength c.opc.toNat := Nat.not_le.mp fun h => Nat.not_lt.mpr hf ((bitLength_le_iff _ _).mp h)
  simp only [outcomeFromFields, usedFormat_formatCode, ok_bind, raiseIf_of_not (Nat.not_lt.mpr hs),
    raiseIf_of_not (Nat.not_lt.mpr he'), raiseIf_of hf', error_bind]

end FromFields

/-- Fields that fit are joined as the numbers the ports hold. -/
theorem joinFields_setWidth_toNat {w : Width} {s e f : Port} (hs : s.toNat ≤ 1) (he : e.toNat < 2 ^ w.expLen)
    (hf : f.toNat < 2 ^ w.mantLen) : (joinFields w (s.setWidth 1) (e.setWidth w.expLen) (f.setWidth w.mantLen)).toNat =
      s.toNat * 2 ^ (w.bits - 1) + e.toNat * 2 ^ w.mantLen + f.toNat := by
  rw [joinFields_toNat, BitVec.toNat_setWidth, BitVec.toNat_setWidth, BitVec.toNat_setWidth, Nat.mod_eq_of_lt he,
    Nat.mod_eq_of_lt hf, Nat.mod_eq_of_lt (by omega)]

/-- Settles O22: the three checks in order, then the record of the joined fields. -/
theorem fromFieldsResult : Obligations.FromFieldsResult := by
  unfold Obligations.FromFieldsResult
  intro w s
  refine ⟨fun hs he hf => ⟨_, exec_of_ok (outcomeFromFields_of_fits hs he hf), ?_⟩,
    fun hs => exec_of_error (e := .valueError) (outcomeFromFields_of_sign hs),
    fun hs he => exec_of_error (e := .overflow .exponent) (outcomeFromFields_of_exponent hs he),
    fun hs he hf => exec_of_error (e := .overflow .mantissa) (outcomeFromFields_of_mantissa hs he hf)⟩
  exact recordSpec_of_toNat_eq (joinFields_setWidth_toNat hs he hf)

theorem outcomeToFields_formatCode (w : Width) (c : Command) :
    outcomeToFields w.formatCode c = .ok (tupleOut (patternOperand w c.opa)) := by
  rw [outcomeToFields, usedFormat_formatCode]
  rfl

theorem tupleSpec_patternOperand (w : Width) (a : Port) :
    TupleSpec w (a.toNat % 2 ^ w.bits) (tupleOut (patternOperand w a)) := by
  rw [← setWidth_port_toNat]
  exact tupleOut_spec ..

/-- Settles O23: TO_FIELDS of a defined format answers with the tuple of its pattern operand. -/
theorem toFieldsResult : Obligations.ToFieldsResult := by
  unfold Obligations.ToFieldsResult
  exact fun w s => ⟨_, exec_of_ok (outcomeToFields_formatCode w s.current), tupleSpec_patternOperand w s.current.opa⟩

/-! ### The round trip (R181) -/

/-- The fields of a pattern put together from fields that fit are those fields (R100). -/
theorem fields_of_joined {w : Width} (s : Nat) {e f : Nat} (he : e < 2 ^ w.expLen) (hf : f < 2 ^ w.mantLen) :
    signOf w (s * 2 ^ (w.bits - 1) + e * 2 ^ w.mantLen + f) = s ∧ expOf w (s * 2 ^ (w.bits - 1) + e * 2 ^ w.mantLen + f) = e ∧
      fracOf w (s * 2 ^ (w.bits - 1) + e * 2 ^ w.mantLen + f) = f := by
  cases w <;> norm_num [signOf, expOf, fracOf] at he hf ⊢ <;> omega

/-- Fields that fit make a pattern of W bits. -/
theorem joined_lt {w : Width} {s e f : Port} (hs : s.toNat ≤ 1) (he : e.toNat < 2 ^ w.expLen) (hf : f.toNat < 2 ^ w.mantLen) :
    s.toNat * 2 ^ (w.bits - 1) + e.toNat * 2 ^ w.mantLen + f.toNat < 2 ^ w.bits := by
  rw [← joinFields_setWidth_toNat hs he hf]
  exact BitVec.isLt _

theorem respond_toFields (w : Width) (a : Port) : respond (Asm.toFields w a).assemble = tupleOut (patternOperand w a) := by
  rw [respond_assemble]
  exact congrArg responseOf (outcomeToFields_formatCode w _)

/-- A tuple within its bounds is accepted, and its record is that of the joined fields. -/
theorem recordSpec_respond_fromFields {w : Width} {s e f : Port} (hs : s.toNat ≤ 1) (he : e.toNat < 2 ^ w.expLen)
    (hf : f.toNat < 2 ^ w.mantLen) :
    RecordSpec w (s.toNat * 2 ^ (w.bits - 1) + e.toNat * 2 ^ w.mantLen + f.toNat)
      (respond (Asm.fromFields w s e f).assemble) := by
  have hout := outcomeFromFields_of_fits (w := w) (c := (Asm.fromFields w s e f).assemble) hs he hf
  rw [respond_assemble]
  exact congrArg responseOf hout ▸ recordSpec_of_toNat_eq (joinFields_setWidth_toNat hs he hf)

/-- A field of at most 64 bits is the same number on a port. -/
theorem toNat_setWidth_port {n : Nat} (x : BitVec n) (hn : n ≤ 64) : (x.setWidth 64).toNat = x.toNat :=
  BitVec.toNat_setWidth_of_le hn

/-- Settles O24: taking fields apart undoes putting them together, and the other way round. -/
theorem fieldTupleRoundTrip : Obligations.FieldTupleRoundTrip := by
  unfold Obligations.FieldTupleRoundTrip
  refine fun w => ⟨fun s e f hs he hf => ?_, fun a => ?_⟩
  · have hrec := recordSpec_respond_fromFields hs he hf
    obtain ⟨hsign, hexp, hfrac⟩ := fields_of_joined s.toNat he hf
    have htup := tupleSpec_patternOperand w (respond (Asm.fromFields w s e f).assemble).bits
    rw [hrec.bits, Nat.mod_eq_of_lt (joined_lt hs he hf)] at htup
    obtain ⟨ts, te, tf, -⟩ := htup
    rw [respond_toFields]
    exact ⟨hrec.err, rfl, rfl, ts.trans hsign, te.trans hexp, tf.trans hfrac⟩
  · obtain ⟨ts, te, tf, -⟩ := tupleSpec_patternOperand w a
    rw [respond_toFields]
    have hs := (toNat_setWidth_port (tupleOut (patternOperand w a)).sign (by decide)).trans ts
    have he := (toNat_setWidth_port (tupleOut (patternOperand w a)).exp (by decide)).trans te
    have hf := (toNat_setWidth_port (tupleOut (patternOperand w a)).mant (by decide)).trans tf
    have hrec := recordSpec_respond_fromFields (hs ▸ Nat.lt_succ_iff.mp (setWidth_port_toNat w a ▸ signOf_lt_two w _))
      (he ▸ expOf_lt ..) (hf ▸ fracOf_lt ..)
    refine ⟨hrec.err, ?_⟩
    rw [hrec.bits, hs, he, hf]
    exact (pattern_eq_fields ..).symm

/-! ### Bits by sequence index (R182 to R184) -/

section BitCommands

variable {w : Width} {c : Command}

theorem outcomeBitAt_of_lt (h : c.aux.toNat < w.bits) :
    outcomeBitAt w.formatCode c = .ok (boolOut ((patternOperand w c.opa).seqBit c.aux.toNat)) := by
  simp only [outcomeBitAt, usedFormat_formatCode, ok_bind, usedIndex_of_lt h, pure_eq]

theorem outcomeBitSet_of_lt (v : BitVec 1) (h : c.aux.toNat < w.bits) :
    outcomeBitSet w.formatCode v c = .ok (recordOut ((patternOperand w c.opa).withBitSet c.aux.toNat v)) := by
  simp only [outcomeBitSet, usedFormat_formatCode, ok_bind, usedIndex_of_lt h, pure_eq]

theorem outcomeBitFlip_of_lt (h : c.aux.toNat < w.bits) :
    outcomeBitFlip w.formatCode c = .ok (recordOut ((patternOperand w c.opa).withBitFlipped c.aux.toNat)) := by
  simp only [outcomeBitFlip, usedFormat_formatCode, ok_bind, usedIndex_of_lt h, pure_eq]

theorem outcomeBitAt_of_le (h : w.bits ≤ c.aux.toNat) : outcomeBitAt w.formatCode c = .error .indexError := by
  simp only [outcomeBitAt, usedFormat_formatCode, ok_bind, usedIndex_of_le h, error_bind]

theorem outcomeBitSet_of_le (v : BitVec 1) (h : w.bits ≤ c.aux.toNat) :
    outcomeBitSet w.formatCode v c = .error .indexError := by
  simp only [outcomeBitSet, usedFormat_formatCode, ok_bind, usedIndex_of_le h, error_bind]

theorem outcomeBitFlip_of_le (h : w.bits ≤ c.aux.toNat) : outcomeBitFlip w.formatCode c = .error .indexError := by
  simp only [outcomeBitFlip, usedFormat_formatCode, ok_bind, usedIndex_of_le h, error_bind]

end BitCommands

theorem boolOut_ofBool (b : Bool) : boolOut (BitVec.ofBool b) = boolResponse b := by
  cases b <;> rfl

/-- A pattern operand holds the port's bits below W. -/
theorem setWidth_port_getLsbD {w : Width} (a : Port) {k : Nat} (hk : k < w.bits) :
    (a.setWidth w.bits).getLsbD k = a.getLsbD k := by
  simp [hk]

/-- Settles O25: sequence index i is bit position W-1-i. -/
theorem bitAtResult : Obligations.BitAtResult := by
  unfold Obligations.BitAtResult
  refine fun w s => ⟨fun h => ?_, fun h => exec_of_error (e := .indexError) (outcomeBitAt_of_le h)⟩
  rw [exec_of_ok (i := .bitAt w.formatCode) (outcomeBitAt_of_lt h), patternOperand_eq, seqBit_eq,
    setWidth_port_getLsbD _ (by omega), boolOut_ofBool]

/-- Settles O26: the record is of `setSeqBit` of the operand, whose no-op case differs in nothing. -/
theorem bitSetResult : Obligations.BitSetResult := by
  unfold Obligations.BitSetResult
  refine fun w v s => ⟨fun h => ?_, fun h => exec_of_error (e := .indexError) (outcomeBitSet_of_le v h)⟩
  refine ⟨_, (setSeqBit w (s.current.opa.setWidth w.bits) s.current.aux.toNat v).toNat, exec_of_ok (outcomeBitSet_of_lt v h), ?_,
    BitVec.isLt _, fun k hk => ?_⟩
  · rw [patternOperand_eq, withBitSet_eq]
    exact recordOut_spec ..
  · rw [← setWidth_port_getLsbD s.current.opa hk]
    exact setSeqBit_getLsbD w _ _ v k hk

/-- Settles O27: the record is of `flipSeqBit` of the operand. -/
theorem bitFlipResult : Obligations.BitFlipResult := by
  unfold Obligations.BitFlipResult
  refine fun w s => ⟨fun h => ?_, fun h => exec_of_error (e := .indexError) (outcomeBitFlip_of_le h)⟩
  refine ⟨_, (flipSeqBit w (s.current.opa.setWidth w.bits) s.current.aux.toNat).toNat, exec_of_ok (outcomeBitFlip_of_lt h),
    recordOut_spec .., BitVec.isLt _, fun k hk => ?_⟩
  rw [← setWidth_port_getLsbD s.current.opa hk]
  exact flipSeqBit_getLsbD w _ _ k hk

/-! ### Setting a bit to itself, and flipping a bit twice -/

/-- The pattern of a record, presented again, is the record's pattern. -/
theorem patternOperand_recordOut_bits (x : FloatValue) : patternOperand x.width (recordOut x).bits = x := by
  obtain ⟨w, p⟩ := x
  refine floatValue_eq_of_toNat_eq ?_
  rw [setWidth_port_toNat, (recordOut_spec w p).bits, Nat.mod_eq_of_lt p.isLt]

theorem withBitSet_seqBit (x : FloatValue) (i : Nat) : x.withBitSet i (x.seqBit i) = x := if_pos rfl

theorem withBitFlipped_twice (x : FloatValue) (i : Nat) : (x.withBitFlipped i).withBitFlipped i = x := by
  obtain ⟨w, p⟩ := x
  rw [withBitFlipped_eq, withBitFlipped_eq, flipSeqBit, flipSeqBit, BitVec.xor_assoc, BitVec.xor_self, BitVec.xor_zero]

section Respond

variable (w : Width) (a : Port) {i : BitVec 8}

theorem respond_bitAt (h : i.toNat < w.bits) :
    respond (Asm.bitAt w a i).assemble = boolOut ((patternOperand w a).seqBit i.toNat) := by
  rw [respond_assemble]
  exact congrArg responseOf (outcomeBitAt_of_lt (c := (Asm.bitAt w a i).assemble) h)

theorem respond_bitSet (v : BitVec 1) (h : i.toNat < w.bits) :
    respond (Asm.bitSet w a i v).assemble = recordOut ((patternOperand w a).withBitSet i.toNat v) := by
  rw [respond_assemble]
  exact congrArg responseOf (outcomeBitSet_of_lt (c := (Asm.bitSet w a i v).assemble) v h)

theorem respond_bitFlip (h : i.toNat < w.bits) :
    respond (Asm.bitFlip w a i).assemble = recordOut ((patternOperand w a).withBitFlipped i.toNat) := by
  rw [respond_assemble]
  exact congrArg responseOf (outcomeBitFlip_of_lt (c := (Asm.bitFlip w a i).assemble) h)

end Respond

/-- Settles O28: in both cases the last record is that of the operand itself. -/
theorem bitMutationIdempotence : Obligations.BitMutationIdempotence := by
  unfold Obligations.BitMutationIdempotence
  intro w a i h
  have hoperand : (recordOut (patternOperand w a)).bits.toNat = a.toNat % 2 ^ w.bits := (recordSpec_patternOperand w a).bits
  refine ⟨?_, ?_⟩
  · rw [respond_bitAt w a h, respond_bitSet w a _ h]
    exact (withBitSet_seqBit (patternOperand w a) i.toNat).symm ▸ hoperand
  · rw [respond_bitFlip w _ h, respond_bitFlip w a h]
    have hagain : patternOperand w (recordOut ((patternOperand w a).withBitFlipped i.toNat)).bits = _ :=
      patternOperand_recordOut_bits ((patternOperand w a).withBitFlipped i.toNat)
    rw [hagain, withBitFlipped_twice, hoperand]

/-! ### abs (R77, R221) -/

theorem magOf_mod (w : Width) (n : Nat) : magOf w (n % 2 ^ w.bits) = n % 2 ^ (w.bits - 1) :=
  Nat.mod_mod_of_dvd n (pow_dvd_pow 2 (Nat.sub_le _ _))

/-- The absolute value of an operand is its magnitude bits (R221). -/
theorem abs_patternOperand_toNat (w : Width) (a : Port) :
    (FloatValue.abs (patternOperand w a)).pattern.toNat = a.toNat % 2 ^ (w.bits - 1) := by
  rw [← magOf_mod, ← setWidth_port_toNat]
  exact setSeqBit_sign_toNat ..

/-- BIT_SET of the sign bit to 0 gives the absolute value. -/
theorem withBitSet_sign_eq_abs (x : FloatValue) : x.withBitSet 0 0 = x.abs := by
  obtain ⟨w, p⟩ := x
  rw [withBitSet_eq, abs_eq]

/-- Settles O29: abs is assembled as BIT_SET of the sign bit to 0, which gives the record of the absolute value. -/
theorem absPseudoInstructionClearsTheSign : Obligations.AbsPseudoInstructionClearsTheSign := by
  unfold Obligations.AbsPseudoInstructionClearsTheSign
  intro w a
  have hasm : (Asm.abs w a).assemble = (Asm.bitSet w a 0 0).assemble := rfl
  refine ⟨hasm, ?_, abs_patternOperand_toNat w a, rfl⟩
  rw [hasm, respond_bitSet w a (i := 0) 0 (Width.bits_pos w)]
  exact withBitSet_sign_eq_abs (patternOperand w a) ▸ recordSpec_of_toNat_eq (abs_patternOperand_toNat w a)

end Sys2Proof.Machine
end

section
/-! The mantissa value and the numeric value (41_classifier.md, sections 3, 4 and 6). The magnitude of a finite pattern's value is a
strictly increasing function of its magnitude bits `P[W-2:0]` alone, across the step from the subnormals to the normals. -/

namespace Sys2Proof.Machine

open Sys2Proof.Claim

theorem Width.bias_cast (w : Width) : (w.bias : ℤ) = 2 ^ (w.expLen - 1) - 1 := by
  cases w <;> rfl

/-! ### Unbiased exponent -/

/-- Settles O33: the formula of R151 at exponent 0, and at 1 to 2^e - 2. -/
theorem unbiasedExponentRange : Obligations.UnbiasedExponentRange := by
  unfold Obligations.UnbiasedExponentRange
  intro w p
  simp only [isSubnormal_eq, isNormal_eq, decide_eq_true_eq, unbiasedExponent_eq, Width.bias_cast]
  refine ⟨fun hs => ?_, fun hn => ?_⟩
  · rw [if_pos (.inr hs), hs.1]
    omega
  · have hlow := hn.1
    have hhigh := hn.2
    have hmax : ((2 ^ w.expLen : Nat) : ℤ) = 2 ^ w.expLen := by push_cast; rfl
    rw [if_pos (.inl hn)]
    omega

/-! ### Mantissa value -/

/-- The low `m` bits of a number, the highest first, are the binary digits of a fraction. -/
theorem mod_two_pow_div_eq_sum (n m : Nat) : ((n % 2 ^ m : Nat) : ℚ) / 2 ^ m =
    ∑ j ∈ Finset.range m, (if n.testBit (m - 1 - j) then 1 else 0) / 2 ^ (j + 1) := by
  induction m with
  | zero => simp [Nat.mod_one]
  | succ m ih =>
    have hdigit : ((n.testBit m).toNat : ℚ) = if n.testBit m then 1 else 0 := by cases n.testBit m <;> simp
    have hrest : ∑ j ∈ Finset.range m, (if n.testBit (m + 1 - 1 - (j + 1)) then (1 : ℚ) else 0) / 2 ^ (j + 1 + 1) =
        (∑ j ∈ Finset.range m, (if n.testBit (m - 1 - j) then (1 : ℚ) else 0) / 2 ^ (j + 1)) / 2 := by
      rw [Finset.sum_div]
      refine Finset.sum_congr rfl fun j _ => ?_
      rw [show m + 1 - 1 - (j + 1) = m - 1 - j by omega, pow_succ 2 (j + 1), div_div]
    rw [Finset.sum_range_succ', hrest, ← ih, Nat.mod_pow_succ, ← Nat.toNat_testBit]
    push_cast
    rw [hdigit, Nat.sub_zero]
    field_simp
    ring

/-- F over 2^m is the sum of the weights of the set mantissa bits (R152). -/
theorem fracOf_div_eq_sum (w : Width) (p : BitVec w.bits) : (fracOf w p.toNat : ℚ) / 2 ^ w.mantLen =
    ∑ j ∈ Finset.range w.mantLen, (if p.getLsbD (w.mantLen - 1 - j) then 1 else 0) / 2 ^ (j + 1) :=
  mod_two_pow_div_eq_sum ..

theorem fracOf_div_lt_one (w : Width) (p : Nat) : (fracOf w p : ℚ) / 2 ^ w.mantLen < 1 := by
  rw [div_lt_one (by positivity)]
  exact_mod_cast fracOf_lt w p


theorem mantissaValue_of_isNormal {w : Width} {p : BitVec w.bits} (h : IsNormal w p.toNat) :
    FloatValue.mantissaValue ⟨w, p⟩ = .finite (2 ^ w.mantLen + fracOf w p.toNat) (w.mantLen + 1) := by
  rw [mantissaValue_eq, if_pos h]

theorem mantissaValue_of_isSubnormal {w : Width} {p : BitVec w.bits} (h : IsSubnormal w p.toNat) :
    FloatValue.mantissaValue ⟨w, p⟩ = .finite (fracOf w p.toNat) w.mantLen := by
  rw [mantissaValue_eq, if_neg (by omega), if_pos h]

theorem mantissaValue_of_isZero {w : Width} {p : BitVec w.bits} (h : IsZero w p.toNat) :
    FloatValue.mantissaValue ⟨w, p⟩ = .finite 0 w.mantLen := by
  rw [mantissaValue_eq, if_neg (by omega), if_neg (by omega), if_pos h]

theorem mantissaValue_of_isInfinite {w : Width} {p : BitVec w.bits} (h : IsInfinite w p.toNat) :
    FloatValue.mantissaValue ⟨w, p⟩ = .plusInf := by
  have hmax := two_le_expMax w
  rw [mantissaValue_eq, if_neg (by omega), if_neg (by omega), if_neg (by omega), if_pos h]

theorem mantissaValue_of_isNaN {w : Width} {p : BitVec w.bits} (h : IsNaN w p.toNat) :
    FloatValue.mantissaValue ⟨w, p⟩ = .nan := by
  have hmax := two_le_expMax w
  rw [mantissaValue_eq, if_neg (by omega), if_neg (by omega), if_neg (by omega), if_neg (by omega)]

/-- The mantissa value of a normal is `1 ‖ mantissa` read as a fraction. -/
theorem normal_mantissa_div_eq (w : Width) (p : Nat) :
    ((2 ^ w.mantLen + fracOf w p : Nat) : ℚ) / 2 ^ (w.mantLen + 1) = 1 / 2 + fracOf w p / 2 ^ w.mantLen / 2 := by
  push_cast
  rw [pow_succ]
  field_simp

/-- Settles O34: `mantissaValue_eq` by category, F over 2^m being the sum of the weights of its bits. -/
theorem mantissaValueIsTheBitSum : Obligations.MantissaValueIsTheBitSum := by
  unfold Obligations.MantissaValueIsTheBitSum
  intro w p
  simp only [isNormal_eq, isSubnormal_eq, isZero_eq, isInfinite_eq, isNaN_eq, decide_eq_true_eq]
  have hlt := fracOf_div_lt_one w p.toNat
  have hnonneg : 0 ≤ (fracOf w p.toNat : ℚ) / 2 ^ w.mantLen := by positivity
  refine ⟨fun hn => ⟨_, mantissaValue_of_isNormal hn, rfl, ?_, ?_, ?_⟩,
    fun hs => ⟨_, mantissaValue_of_isSubnormal hs, rfl, fracOf_div_eq_sum w p, ?_, ?_⟩,
    mantissaValue_of_isZero, mantissaValue_of_isInfinite, mantissaValue_of_isNaN⟩
  · rw [normal_mantissa_div_eq, fracOf_div_eq_sum, Finset.sum_div]
    congr 1
    exact Finset.sum_congr rfl fun j _ => by rw [div_div, ← pow_succ]
  · rw [normal_mantissa_div_eq]
    linarith
  · rw [normal_mantissa_div_eq]
    linarith
  · have hpos : 1 ≤ fracOf w p.toNat := Nat.one_le_iff_ne_zero.mpr hs.2
    gcongr
    exact_mod_cast hpos
  · have hsucc : fracOf w p.toNat + 1 ≤ 2 ^ w.mantLen := fracOf_lt w p.toNat
    rw [le_sub_iff_add_le, ← add_div, div_le_one (by positivity)]
    exact_mod_cast hsucc

/-! ### Numeric value -/

theorem signedScaled_toRat (s : Nat) (num scale : Nat) (uexp : ℤ) (hs : s < 2) :
    (signedScaled (if s = 1 then .minus else .plus) num scale uexp).toRat = (-1) ^ s * (num * 2 ^ (uexp - scale)) := by
  interval_cases s <;> simp [signedScaled, Scaled.toRat]

theorem numericValue_of_isZero {w : Width} {p : BitVec w.bits} (h : IsZero w p.toNat) :
    FloatValue.numericValue ⟨w, p⟩ = .zero (FloatValue.sign ⟨w, p⟩) := by
  rw [FloatValue.numericValue, isZero_eq, if_pos (decide_eq_true h)]

/-- A nonzero pattern's value is that of its mantissa value (R154). -/
theorem numericValue_of_finite {w : Width} {p : BitVec w.bits} {num scale : Nat} (h : ¬ IsZero w p.toNat)
    (hm : FloatValue.mantissaValue ⟨w, p⟩ = .finite num scale) : FloatValue.numericValue ⟨w, p⟩ =
      .finite (signedScaled (FloatValue.sign ⟨w, p⟩) num scale (FloatValue.unbiasedExponent ⟨w, p⟩)) := by
  rw [FloatValue.numericValue, isZero_eq, if_neg (by simpa using h), hm]

theorem normal_scaled_eq_ieeeValue {w : Width} {p : BitVec w.bits} (h : IsNormal w p.toNat) :
    (signedScaled (FloatValue.sign ⟨w, p⟩) (2 ^ w.mantLen + fracOf w p.toNat) (w.mantLen + 1)
      (FloatValue.unbiasedExponent ⟨w, p⟩)).toRat = ieeeValue w p.toNat := by
  have hexp : FloatValue.unbiasedExponent ⟨w, p⟩ - ((w.mantLen + 1 : Nat) : ℤ) =
      (expOf w p.toNat : ℤ) - w.bias - (w.mantLen : Nat) := by
    rw [unbiasedExponent_eq, if_pos (.inl h), Width.bias_cast]
    push_cast
    ring
  rw [sign_eq, signedScaled_toRat _ _ _ _ (signOf_lt_two w p), hexp, zpow_sub₀ two_ne_zero _ (w.mantLen : ℤ), zpow_natCast,
    ieeeValue, if_neg (by omega)]
  push_cast
  field_simp

theorem subnormal_scaled_eq_ieeeValue {w : Width} {p : BitVec w.bits} (h : IsSubnormal w p.toNat) :
    (signedScaled (FloatValue.sign ⟨w, p⟩) (fracOf w p.toNat) w.mantLen (FloatValue.unbiasedExponent ⟨w, p⟩)).toRat =
      ieeeValue w p.toNat := by
  have hexp : FloatValue.unbiasedExponent ⟨w, p⟩ = 1 - (w.bias : ℤ) := by
    rw [unbiasedExponent_eq, if_pos (.inr h), Width.bias_cast, h.1]
    push_cast
    ring
  rw [sign_eq, signedScaled_toRat _ _ _ _ (signOf_lt_two w p), hexp, zpow_sub₀ two_ne_zero _ (w.mantLen : ℤ), zpow_natCast,
    ieeeValue, if_pos h.1]
  field_simp

/-- Settles O35: the mantissa value of each category, scaled by its unbiased exponent. -/
theorem numericValueIsTheIeeeValue : Obligations.NumericValueIsTheIeeeValue := by
  unfold Obligations.NumericValueIsTheIeeeValue
  intro w p
  have hmax := two_le_expMax w
  simp only [← sign_eq]
  refine ⟨fun hz => ⟨numericValue_of_isZero hz, ?_⟩, fun h => ?_, fun hi => ?_, fun hn => ?_⟩
  · rw [FloatValue.asNumber, numericValue_of_isZero hz]
    simp [Scaled.toRat]
  · rcases h with hn | hs
    · exact ⟨_, numericValue_of_finite (by omega) (mantissaValue_of_isNormal hn), normal_scaled_eq_ieeeValue hn⟩
    · exact ⟨_, numericValue_of_finite (by omega) (mantissaValue_of_isSubnormal hs), subnormal_scaled_eq_ieeeValue hs⟩
  · rw [FloatValue.numericValue, isZero_eq, decide_eq_false (by omega), mantissaValue_of_isInfinite hi]
    rfl
  · rw [FloatValue.numericValue, isZero_eq, decide_eq_false (by omega), mantissaValue_of_isNaN hn]
    rfl

theorem ieeeValue_of_isZero {w : Width} {p : Nat} (h : IsZero w p) : ieeeValue w p = 0 := by
  rw [ieeeValue, if_pos h.1, h.2]
  simp

/-- As a number a finite pattern is its IEEE value, both zeros being 0. -/
theorem asNumber_toRat_of_isFinite {w : Width} {p : BitVec w.bits} (h : IsFinite w p.toNat) :
    (FloatValue.asNumber ⟨w, p⟩).toRat = ieeeValue w p.toNat := by
  obtain ⟨hzero, hfinite, -, -⟩ := numericValueIsTheIeeeValue w p
  rcases category_cases w p.toNat with hz | hs | hn | hi | hnan
  · rw [(hzero hz).2, ieeeValue_of_isZero hz]
  · obtain ⟨v, hv, hval⟩ := hfinite (.inr hs)
    rw [FloatValue.asNumber, hv, hval]
  · obtain ⟨v, hv, hval⟩ := hfinite (.inl hn)
    rw [FloatValue.asNumber, hv, hval]
  · exact absurd hi.1 h
  · exact absurd hnan.1 h

/-! ### Magnitudes -/

theorem isZero_iff_magOf (w : Width) (p : Nat) : IsZero w p ↔ magOf w p = 0 := by
  rw [magOf_eq, Nat.add_eq_zero_iff, Nat.mul_eq_zero, or_iff_left (Nat.two_pow_pos _).ne']

theorem isSubnormal_magOf_lt {w : Width} {p : Nat} (h : IsSubnormal w p) : magOf w p < 2 ^ w.mantLen := by
  rw [magOf_eq, h.1, Nat.zero_mul, Nat.zero_add]
  exact fracOf_lt w p

theorem isNormal_le_magOf {w : Width} {p : Nat} (h : IsNormal w p) : 2 ^ w.mantLen ≤ magOf w p := by
  rw [magOf_eq]
  exact le_add_right (Nat.le_mul_of_pos_left _ h.1)

/-- A pattern is its sign above its magnitude bits. -/
theorem pattern_eq_sign_mag (w : Width) (p : Nat) : p = signOf w p * 2 ^ (w.bits - 1) + magOf w p := by
  rw [magOf_eq, ← Nat.add_assoc]
  exact pattern_eq_fields w p

/-- The magnitude of the value whose magnitude bits are `n`, counted in least subnormals. -/
def magUnits (w : Width) (n : Nat) : Nat :=
  if n / 2 ^ w.mantLen = 0 then n % 2 ^ w.mantLen
  else (2 ^ w.mantLen + n % 2 ^ w.mantLen) * 2 ^ (n / 2 ^ w.mantLen - 1)

/-- The least subnormal. -/
def leastSubnormal (w : Width) : ℚ := 2 ^ (1 - (w.bias : ℤ) - w.mantLen)

theorem leastSubnormal_pos (w : Width) : 0 < leastSubnormal w := zpow_pos two_pos _

theorem two_pow_mul_leastSubnormal (w : Width) : 2 ^ w.mantLen * leastSubnormal w = 2 ^ (1 - (w.bias : ℤ)) := by
  rw [leastSubnormal, zpow_sub₀ two_ne_zero _ (w.mantLen : ℤ), zpow_natCast]
  field_simp

/-- Magnitude bits given as an exponent and a mantissa. -/
theorem magUnits_of_fields (w : Width) (e : Nat) {f : Nat} (hf : f < 2 ^ w.mantLen) :
    magUnits w (e * 2 ^ w.mantLen + f) = if e = 0 then f else (2 ^ w.mantLen + f) * 2 ^ (e - 1) := by
  have hdiv : (e * 2 ^ w.mantLen + f) / 2 ^ w.mantLen = e := by
    rw [Nat.mul_comm, Nat.mul_add_div (by positivity), Nat.div_eq_of_lt hf, Nat.add_zero]
  have hmod : (e * 2 ^ w.mantLen + f) % 2 ^ w.mantLen = f := by
    rw [Nat.mul_comm, Nat.mul_add_mod, Nat.mod_eq_of_lt hf]
  rw [magUnits, hdiv, hmod]

theorem magUnits_zero (w : Width) : magUnits w 0 = 0 := by
  simp [magUnits]

theorem magUnits_leastNormal (w : Width) : magUnits w (2 ^ w.mantLen) = 2 ^ w.mantLen := by
  simpa using magUnits_of_fields w 1 (Nat.two_pow_pos w.mantLen)

/-- The next magnitude is one unit in the last place further; past the largest mantissa the exponent goes up with no gap. -/
theorem magUnits_succ (w : Width) (n : Nat) : magUnits w (n + 1) = magUnits w n + 2 ^ (n / 2 ^ w.mantLen - 1) := by
  have hf : n % 2 ^ w.mantLen < 2 ^ w.mantLen := Nat.mod_lt _ (by positivity)
  have hn : n / 2 ^ w.mantLen * 2 ^ w.mantLen + n % 2 ^ w.mantLen = n := Nat.div_add_mod' ..
  generalize n / 2 ^ w.mantLen = e at *
  generalize n % 2 ^ w.mantLen = f at *
  subst hn
  rw [magUnits_of_fields w e hf]
  rcases Nat.lt_or_ge (f + 1) (2 ^ w.mantLen) with hlt | hge
  · rw [Nat.add_assoc, magUnits_of_fields w e hlt]
    split
    case isTrue he => simp [he]
    case isFalse => ring
  · have hlast : f + 1 = 2 ^ w.mantLen := by omega
    have hcarry : e * 2 ^ w.mantLen + f + 1 = (e + 1) * 2 ^ w.mantLen + 0 := by rw [Nat.add_assoc, hlast]; ring
    rw [hcarry, magUnits_of_fields w (e + 1) (Nat.two_pow_pos _), ← hlast]
    cases e with
    | zero => simp
    | succ e =>
      rw [if_neg (Nat.succ_ne_zero _), if_neg (Nat.succ_ne_zero _), Nat.add_sub_cancel, Nat.add_sub_cancel]
      ring

theorem magUnits_strictMono (w : Width) : StrictMono (magUnits w) :=
  strictMono_nat_of_lt_succ fun n => by
    rw [magUnits_succ]
    exact Nat.lt_add_of_pos_right (Nat.two_pow_pos _)

/-- The magnitude of a value in least subnormals, as a number. -/
def magValue (w : Width) (p : Nat) : ℚ := magUnits w (magOf w p) * leastSubnormal w

theorem ieeeValue_eq (w : Width) (p : Nat) : ieeeValue w p = (-1) ^ signOf w p * magValue w p := by
  rw [ieeeValue, magValue, magOf_eq, magUnits_of_fields w _ (fracOf_lt w p), leastSubnormal,
    zpow_sub₀ two_ne_zero _ (w.mantLen : ℤ), zpow_natCast]
  congr 1
  cases expOf w p with
  | zero =>
    rw [if_pos rfl, if_pos rfl]
    field_simp
  | succ e =>
    have hexp : ((e + 1 : Nat) : ℤ) - w.bias = e + (1 - w.bias) := by push_cast; ring
    rw [if_neg e.succ_ne_zero, if_neg e.succ_ne_zero, hexp, zpow_add₀ two_ne_zero, zpow_natCast]
    push_cast
    field_simp

theorem magValue_nonneg (w : Width) (p : Nat) : 0 ≤ magValue w p :=
  mul_nonneg (Nat.cast_nonneg _) (leastSubnormal_pos w).le

theorem magValue_lt_iff (w : Width) (p q : Nat) : magValue w p < magValue w q ↔ magOf w p < magOf w q := by
  rw [magValue, magValue, mul_lt_mul_iff_left₀ (leastSubnormal_pos w), Nat.cast_lt, (magUnits_strictMono w).lt_iff_lt]

theorem magValue_le_iff (w : Width) (p q : Nat) : magValue w p ≤ magValue w q ↔ magOf w p ≤ magOf w q := by
  rw [← not_lt, magValue_lt_iff, not_lt]

theorem abs_ieeeValue (w : Width) (p : Nat) : |ieeeValue w p| = magValue w p := by
  rw [ieeeValue_eq, abs_mul, abs_neg_one_pow, one_mul, abs_of_nonneg (magValue_nonneg w p)]

theorem magValue_pos_iff (w : Width) (p : Nat) : 0 < magValue w p ↔ ¬ IsZero w p := by
  have hunits : 0 < magUnits w (magOf w p) ↔ 0 < magOf w p := by
    simpa [magUnits_zero] using (magUnits_strictMono w).lt_iff_lt (a := 0) (b := magOf w p)
  rw [magValue, mul_pos_iff_of_pos_right (leastSubnormal_pos w), Nat.cast_pos, hunits, isZero_iff_magOf, Nat.pos_iff_ne_zero]

/-! ### Values and patterns (41_classifier.md, section 6) -/

theorem leastNormal_le_abs_ieeeValue {w : Width} {p : Nat} (h : IsNormal w p) : 2 ^ (1 - (w.bias : ℤ)) ≤ |ieeeValue w p| := by
  have hunits : 2 ^ w.mantLen ≤ magUnits w (magOf w p) := by
    rw [← magUnits_leastNormal]
    exact (magUnits_strictMono w).monotone (isNormal_le_magOf h)
  rw [abs_ieeeValue, magValue, ← two_pow_mul_leastSubnormal]
  exact mul_le_mul_of_nonneg_right (by exact_mod_cast hunits) (leastSubnormal_pos w).le

theorem abs_ieeeValue_lt_leastNormal {w : Width} {p : Nat} (h : IsSubnormal w p) : |ieeeValue w p| < 2 ^ (1 - (w.bias : ℤ)) := by
  have hunits : magUnits w (magOf w p) < 2 ^ w.mantLen := by
    conv_rhs => rw [← magUnits_leastNormal]
    exact magUnits_strictMono w (isSubnormal_magOf_lt h)
  rw [abs_ieeeValue, magValue, ← two_pow_mul_leastSubnormal]
  exact mul_lt_mul_of_pos_right (by exact_mod_cast hunits) (leastSubnormal_pos w)

theorem neg_one_pow_inj {s t : Nat} (hs : s < 2) (ht : t < 2) (h : (-1 : ℚ) ^ s = (-1) ^ t) : s = t := by
  interval_cases s
  · interval_cases t
    · rfl
    · norm_num at h
  · interval_cases t
    · norm_num at h
    · rfl

/-- Equal nonzero values have equal signs, and equal magnitude bits. -/
theorem eq_of_ieeeValue_eq {w : Width} {p q : BitVec w.bits} (hp : ¬ IsZero w p.toNat)
    (h : ieeeValue w p.toNat = ieeeValue w q.toNat) : p = q := by
  have habs : magValue w p.toNat = magValue w q.toNat := by rw [← abs_ieeeValue, h, abs_ieeeValue]
  have hmag : magOf w p.toNat = magOf w q.toNat :=
    le_antisymm ((magValue_le_iff ..).mp habs.le) ((magValue_le_iff ..).mp habs.ge)
  have hsign : signOf w p.toNat = signOf w q.toNat := by
    have hpos := (magValue_pos_iff w p.toNat).mpr hp
    have hs := signOf_lt_two w p
    have ht := signOf_lt_two w q
    rw [ieeeValue_eq, ieeeValue_eq, ← habs] at h
    exact neg_one_pow_inj hs ht (mul_right_cancel₀ hpos.ne' h)
  apply BitVec.eq_of_toNat_eq
  rw [pattern_eq_sign_mag w p.toNat, pattern_eq_sign_mag w q.toNat, hsign, hmag]

theorem isFinite_of_isNormal {w : Width} {p : Nat} (h : IsNormal w p) : IsFinite w p := by
  have hmax := two_le_expMax w
  omega

theorem isFinite_of_isSubnormal {w : Width} {p : Nat} (h : IsSubnormal w p) : IsFinite w p := by
  have hmax := two_le_expMax w
  omega

/-- Settles O36: as a number a finite pattern is its IEEE value, whose magnitude increases with the magnitude bits. -/
theorem numericValueOrdersThePatterns : Obligations.NumericValueOrdersThePatterns := by
  unfold Obligations.NumericValueOrdersThePatterns
  intro w p q
  simp only [isFinite_eq, isZero_eq, isNormal_eq, isSubnormal_eq, decide_eq_true_eq, decide_eq_false_iff_not]
  refine ⟨fun hp hzp hq _ h => ?_, fun hn => ?_, fun hs => ?_, fun hcat hmag => ?_⟩
  · rw [asNumber_toRat_of_isFinite hp, asNumber_toRat_of_isFinite hq] at h
    exact eq_of_ieeeValue_eq hzp h
  · rw [asNumber_toRat_of_isFinite (isFinite_of_isNormal hn)]
    exact leastNormal_le_abs_ieeeValue hn
  · rw [asNumber_toRat_of_isFinite (isFinite_of_isSubnormal hs)]
    exact abs_ieeeValue_lt_leastNormal hs
  · have hfinite : IsFinite w p.toNat ∧ IsFinite w q.toNat :=
      hcat.elim (fun h => ⟨isFinite_of_isNormal h.1, isFinite_of_isNormal h.2⟩)
        fun h => ⟨isFinite_of_isSubnormal h.1, isFinite_of_isSubnormal h.2⟩
    rw [asNumber_toRat_of_isFinite hfinite.1, asNumber_toRat_of_isFinite hfinite.2, abs_ieeeValue, abs_ieeeValue]
    exact (magValue_lt_iff ..).mpr hmag

end Sys2Proof.Machine
end

section
/-! The total order (43_totalorder.md). All four rows of the decision table are the comparison of keys: a key is the magnitude bits,
counted up from the middle for a positive pattern and down for a negative one, and the finite patterns, the infinities and the NaNs lie
at increasing magnitudes. -/

namespace Sys2Proof.Machine

open Sys2Proof.Claim

/-! ### Rows 1 and 2, with finite operands -/

section Finite

variable {x y : FloatValue}

theorem totalOrder_of_isFinite (hx : x.isFinite = true) (hy : y.isFinite = true) :
    totalOrder x y = if !x.isZero && !y.isZero then orderFinite x y else orderZero x y := by
  simp [totalOrder, hx, hy]

/-- Of two numbers at most one is less than the other, so row 1 asks only whether the second is (R222). -/
theorem orderFinite_eq (x y : FloatValue) : orderFinite x y = !y.asNumber.lt x.asNumber := by
  rw [orderFinite]
  split
  case isTrue hlt => rw [(Scaled.lt_eq_false_iff ..).mpr ((Scaled.lt_iff ..).mp hlt).le, Bool.not_false]
  case isFalse => cases y.asNumber.lt x.asNumber <;> rfl

theorem orderZero_of_nonzero (h : (x.isZero && y.isZero) = false) : orderZero x y = !y.asNumber.lt x.asNumber := by
  rw [orderZero, h, if_neg Bool.false_ne_true]

end Finite

/-- Rows 1 and 2 compare two finite operands as numbers, unless both are zeros (R222, R223). -/
theorem totalOrder_iff_ieeeValue {w : Width} {p q : BitVec w.bits} (hp : IsFinite w p.toNat) (hq : IsFinite w q.toNat)
    (hz : ¬ (IsZero w p.toNat ∧ IsZero w q.toNat)) :
    totalOrder ⟨w, p⟩ ⟨w, q⟩ = true ↔ ieeeValue w p.toNat ≤ ieeeValue w q.toNat := by
  have hfx : FloatValue.isFinite ⟨w, p⟩ = true := by rw [isFinite_eq, decide_eq_true hp]
  have hfy : FloatValue.isFinite ⟨w, q⟩ = true := by rw [isFinite_eq, decide_eq_true hq]
  have hz' : (FloatValue.isZero ⟨w, p⟩ && FloatValue.isZero ⟨w, q⟩) = false := by
    rw [isZero_eq, isZero_eq, ← Bool.decide_and, decide_eq_false hz]
  rw [← asNumber_toRat_of_isFinite hp, ← asNumber_toRat_of_isFinite hq, ← Scaled.lt_eq_false_iff, ← Bool.not_eq_true',
    totalOrder_of_isFinite hfx hfy]
  split
  · rw [orderFinite_eq]
  · rw [orderZero_of_nonzero hz']

theorem isFinite_of_isZero {w : Width} {p : Nat} (h : IsZero w p) : IsFinite w p := by
  have hmax := two_le_expMax w
  omega

/-- Two zeros are ordered by sign (R223). -/
theorem totalOrder_zeros {w : Width} {p q : BitVec w.bits} (hp : IsZero w p.toNat) (hq : IsZero w q.toNat) :
    totalOrder ⟨w, p⟩ ⟨w, q⟩ = false ↔ signOf w p.toNat = 0 ∧ signOf w q.toNat = 1 := by
  have hfx : FloatValue.isFinite ⟨w, p⟩ = true := by rw [isFinite_eq, decide_eq_true (isFinite_of_isZero hp)]
  have hfy : FloatValue.isFinite ⟨w, q⟩ = true := by rw [isFinite_eq, decide_eq_true (isFinite_of_isZero hq)]
  have hzx : FloatValue.isZero ⟨w, p⟩ = true := by rw [isZero_eq, decide_eq_true hp]
  have hzy : FloatValue.isZero ⟨w, q⟩ = true := by rw [isZero_eq, decide_eq_true hq]
  rw [totalOrder_of_isFinite hfx hfy, ← sign_eq_plus_iff, ← sign_eq_minus_iff]
  simp [orderZero, hzx, hzy]

/-- Settles O37: row 1 compares the numbers, which are the IEEE values. -/
theorem orderOfFiniteNonzeroIsNumeric : Obligations.OrderOfFiniteNonzeroIsNumeric := by
  unfold Obligations.OrderOfFiniteNonzeroIsNumeric
  exact fun w p q hp hq hzp _ => totalOrder_iff_ieeeValue hp hq fun hz => hzp hz.1

/-- Settles O38: row 2 by sign for two zeros, by number for one. -/
theorem orderOfZeros : Obligations.OrderOfZeros := by
  unfold Obligations.OrderOfZeros
  refine fun w p q => ⟨totalOrder_zeros, fun hp hq hzq => ?_, fun hp hzp hq => ?_⟩
  · rw [totalOrder_iff_ieeeValue (isFinite_of_isZero hp) hq fun hz => hzq hz.2, ieeeValue_of_isZero hp]
  · rw [totalOrder_iff_ieeeValue hp (isFinite_of_isZero hq) fun hz => hzp hz.1, ieeeValue_of_isZero hq]

/-! ### Keys as numbers (R236) -/

theorem magOf_lt (w : Width) (p : Nat) : magOf w p < 2 ^ (w.bits - 1) := Nat.mod_lt _ (by positivity)

theorem two_pow_bits (w : Width) : 2 ^ w.bits = 2 * 2 ^ (w.bits - 1) := by
  cases w <;> rfl

/-- The key of a positive pattern counts its magnitude up. -/
theorem orderKey_of_plus {w : Width} {p : Nat} (h : signOf w p = 0) : orderKey w p = 2 ^ (w.bits - 1) + magOf w p := by
  have hp := pattern_eq_sign_mag w p
  have hmag := magOf_lt w p
  rw [h, Nat.zero_mul, Nat.zero_add] at hp
  rw [orderKey, if_pos (by omega)]
  omega

/-- The key of a negative pattern counts its magnitude down. -/
theorem orderKey_of_minus {w : Width} {p : Nat} (h : signOf w p = 1) : orderKey w p = 2 ^ (w.bits - 1) - 1 - magOf w p := by
  have hp := pattern_eq_sign_mag w p
  have hbits := two_pow_bits w
  rw [h, Nat.one_mul] at hp
  rw [orderKey, if_neg (by omega)]
  omega

/-- Keys compare the signs first, then the magnitudes, in the order the sign gives. -/
theorem orderKey_le_iff {w : Width} (p q : BitVec w.bits) : orderKey w p.toNat ≤ orderKey w q.toNat ↔
    (signOf w p.toNat = 1 ∧ signOf w q.toNat = 0) ∨
    (signOf w p.toNat = 0 ∧ signOf w q.toNat = 0 ∧ magOf w p.toNat ≤ magOf w q.toNat) ∨
    (signOf w p.toNat = 1 ∧ signOf w q.toNat = 1 ∧ magOf w q.toNat ≤ magOf w p.toNat) := by
  have hp := magOf_lt w p.toNat
  have hq := magOf_lt w q.toNat
  have hs := signOf_lt_two w p
  have ht := signOf_lt_two w q
  obtain hs | hs : signOf w p.toNat = 0 ∨ signOf w p.toNat = 1 := by omega
  · obtain ht | ht : signOf w q.toNat = 0 ∨ signOf w q.toNat = 1 := by omega
    · rw [orderKey_of_plus hs, orderKey_of_plus ht]
      omega
    · rw [orderKey_of_plus hs, orderKey_of_minus ht]
      omega
  · obtain ht | ht : signOf w q.toNat = 0 ∨ signOf w q.toNat = 1 := by omega
    · rw [orderKey_of_minus hs, orderKey_of_plus ht]
      omega
    · rw [orderKey_of_minus hs, orderKey_of_minus ht]
      omega

/-! ### The categories by magnitude -/

/-- The magnitude bits of an infinity. -/
def infMag (w : Width) : Nat := (2 ^ w.expLen - 1) * 2 ^ w.mantLen

theorem isFinite_iff_magOf (w : Width) (p : Nat) : IsFinite w p ↔ magOf w p < infMag w := by
  have he := expOf_lt w p
  have hf := fracOf_lt w p
  rw [magOf_eq, infMag]
  cases w <;> norm_num [IsFinite] at he hf ⊢ <;> omega

theorem isInfinite_iff_magOf (w : Width) (p : Nat) : IsInfinite w p ↔ magOf w p = infMag w := by
  have he := expOf_lt w p
  have hf := fracOf_lt w p
  rw [magOf_eq, infMag]
  cases w <;> norm_num [IsInfinite] at he hf ⊢ <;> omega

theorem isNaN_iff_magOf (w : Width) (p : Nat) : IsNaN w p ↔ infMag w < magOf w p := by
  have hinf := isInfinite_iff_magOf w p
  have hfin := isFinite_iff_magOf w p
  omega

/-! ### The rows as comparisons of keys (43_totalorder.md, section 4) -/

section Rows

variable {w : Width} {p q : BitVec w.bits}

/-- A negative NaN has a lower key than every pattern that is not one. -/
theorem orderKey_lt_of_negNaN (hp : IsNaN w p.toNat ∧ signOf w p.toNat = 1) (hq : ¬ (IsNaN w q.toNat ∧ signOf w q.toNat = 1)) :
    orderKey w p.toNat < orderKey w q.toNat := by
  rw [isNaN_iff_magOf] at hp hq
  rw [← not_le, orderKey_le_iff]
  omega

/-- A positive NaN has a higher key than every pattern that is not one. -/
theorem orderKey_lt_of_posNaN (hq : IsNaN w q.toNat ∧ signOf w q.toNat = 0) (hp : ¬ (IsNaN w p.toNat ∧ signOf w p.toNat = 0)) :
    orderKey w p.toNat < orderKey w q.toNat := by
  have hs := signOf_lt_two w p
  rw [isNaN_iff_magOf] at hp hq
  rw [← not_le, orderKey_le_iff]
  omega

/-- Row 3: the NaNs have the greatest magnitudes. -/
theorem totalOrder_iff_orderKey_of_isNaN (h : IsNaN w p.toNat ∨ IsNaN w q.toNat) :
    totalOrder ⟨w, p⟩ ⟨w, q⟩ = true ↔ orderKey w p.toNat ≤ orderKey w q.toNat := by
  obtain ⟨hnegLeft, hnegRight, hposRight, hposLeft, hpos, hneg⟩ := orderOfNaNs w p q
  by_cases hnp : IsNaN w p.toNat ∧ signOf w p.toNat = 1
  · by_cases hnq : IsNaN w q.toNat ∧ signOf w q.toNat = 1
    · rw [hneg hnp hnq, orderKey_le_iff]
      simp [hnp.2, hnq.2]
    · exact iff_of_true (hnegLeft hnp hnq) (orderKey_lt_of_negNaN hnp hnq).le
  by_cases hnq : IsNaN w q.toNat ∧ signOf w q.toNat = 1
  · exact iff_of_false (by simp [hnegRight hnq hnp]) (orderKey_lt_of_negNaN hnq hnp).not_ge
  by_cases hpq : IsNaN w q.toNat ∧ signOf w q.toNat = 0
  · by_cases hpp : IsNaN w p.toNat ∧ signOf w p.toNat = 0
    · rw [hpos hpp hpq, orderKey_le_iff]
      simp [hpp.2, hpq.2]
    · exact iff_of_true (hposRight hpq hpp) (orderKey_lt_of_posNaN hpq hpp).le
  · have hpp : IsNaN w p.toNat ∧ signOf w p.toNat = 0 := by
      have hs := signOf_lt_two w p
      have ht := signOf_lt_two w q
      have hqn : ¬ IsNaN w q.toNat := fun hn => by omega
      have hpn := h.resolve_right hqn
      exact ⟨hpn, by omega⟩
    exact iff_of_false (by simp [hposLeft hpp hpq]) (orderKey_lt_of_posNaN hpp hpq).not_ge

/-- Row 4: the infinities have the greatest magnitude but for the NaNs. -/
theorem totalOrder_iff_orderKey_of_isInfinite (hp : ¬ IsNaN w p.toNat) (hq : ¬ IsNaN w q.toNat)
    (h : IsInfinite w p.toNat ∨ IsInfinite w q.toNat) :
    totalOrder ⟨w, p⟩ ⟨w, q⟩ = true ↔ orderKey w p.toNat ≤ orderKey w q.toNat := by
  obtain ⟨hnegLeft, hnegRight, hposRight, hposLeft⟩ := orderOfInfinities w p q hp hq
  have hs := signOf_lt_two w p
  have ht := signOf_lt_two w q
  rw [orderKey_le_iff]
  simp only [isNaN_iff_magOf, isInfinite_iff_magOf, isFinite_iff_magOf] at *
  by_cases hnp : magOf w p.toNat = infMag w ∧ signOf w p.toNat = 1
  · exact iff_of_true (hnegLeft hnp) (by omega)
  by_cases hnq : magOf w q.toNat = infMag w ∧ signOf w q.toNat = 1
  · exact iff_of_false (by simp [hnegRight hnp hnq]) (by omega)
  by_cases hpq : magOf w q.toNat = infMag w ∧ signOf w q.toNat = 0
  · exact iff_of_true (hposRight hnp hpq) (by omega)
  · have hpp : magOf w p.toNat = infMag w ∧ signOf w p.toNat = 0 := by omega
    exact iff_of_false (by simp [hposLeft hpp (by omega)]) (by omega)

/-- Values compare as keys do, unless both are zeros: the value is the magnitude, with the sign. -/
theorem ieeeValue_le_iff_orderKey (hz : ¬ (IsZero w p.toNat ∧ IsZero w q.toNat)) :
    ieeeValue w p.toNat ≤ ieeeValue w q.toNat ↔ orderKey w p.toNat ≤ orderKey w q.toNat := by
  have hp := magValue_nonneg w p.toNat
  have hq := magValue_nonneg w q.toNat
  have hs := signOf_lt_two w p
  have ht := signOf_lt_two w q
  rw [orderKey_le_iff, ieeeValue_eq, ieeeValue_eq]
  obtain hs | hs : signOf w p.toNat = 0 ∨ signOf w p.toNat = 1 := by omega
  · obtain ht | ht : signOf w q.toNat = 0 ∨ signOf w q.toNat = 1 := by omega
    · simp [hs, ht, magValue_le_iff]
    · have hpos : 0 < magValue w p.toNat ∨ 0 < magValue w q.toNat := by
        rw [magValue_pos_iff, magValue_pos_iff]
        exact not_and_or.mp hz
      have hlt : -magValue w q.toNat < magValue w p.toNat := by
        rcases hpos with h | h <;> linarith
      simpa [hs, ht] using hlt
  · obtain ht | ht : signOf w q.toNat = 0 ∨ signOf w q.toNat = 1 := by omega
    · have hle : -magValue w p.toNat ≤ magValue w q.toNat := by linarith
      simpa [hs, ht] using hle
    · simp [hs, ht, magValue_le_iff]

/-- Two zeros have magnitude 0, so their keys compare by sign alone. -/
theorem totalOrder_iff_orderKey_of_zeros (hp : IsZero w p.toNat) (hq : IsZero w q.toNat) :
    totalOrder ⟨w, p⟩ ⟨w, q⟩ = true ↔ orderKey w p.toNat ≤ orderKey w q.toNat := by
  have hs := signOf_lt_two w p
  have ht := signOf_lt_two w q
  rw [← Bool.not_eq_false, totalOrder_zeros hp hq, orderKey_le_iff, (isZero_iff_magOf ..).mp hp, (isZero_iff_magOf ..).mp hq]
  omega

/-- The four rows of the decision table are one comparison of keys. -/
theorem totalOrder_iff_orderKey (p q : BitVec w.bits) :
    totalOrder ⟨w, p⟩ ⟨w, q⟩ = true ↔ orderKey w p.toNat ≤ orderKey w q.toNat := by
  by_cases hnan : IsNaN w p.toNat ∨ IsNaN w q.toNat
  · exact totalOrder_iff_orderKey_of_isNaN hnan
  obtain ⟨hnp, hnq⟩ := not_or.mp hnan
  by_cases hinf : IsInfinite w p.toNat ∨ IsInfinite w q.toNat
  · exact totalOrder_iff_orderKey_of_isInfinite hnp hnq hinf
  by_cases hz : IsZero w p.toNat ∧ IsZero w q.toNat
  · exact totalOrder_iff_orderKey_of_zeros hz.1 hz.2
  · rw [totalOrder_iff_ieeeValue (by omega) (by omega) hz, ieeeValue_le_iff_orderKey hz]

end Rows

/-! ### Keys of patterns -/

theorem getLsbD_sign_iff (w : Width) (p : BitVec w.bits) : p.getLsbD (w.bits - 1) = true ↔ signOf w p.toNat = 1 := by
  rw [BitVec.getLsbD, Nat.testBit_eq_decide_div_mod_eq, decide_eq_true_iff, ← signOf, Nat.mod_eq_of_lt (signOf_lt_two w p)]

/-- The key inverts the bits R236 says (R236). -/
theorem key_eq_xor (w : Width) (p : BitVec w.bits) : FloatValue.key ⟨w, p⟩ =
    if p.getLsbD (w.bits - 1) then p.toNat ^^^ (2 ^ w.bits - 1) else p.toNat ^^^ 2 ^ (w.bits - 1) := by
  have hsign : FloatValue.rawSign ⟨w, p⟩ = 1 ↔ p.getLsbD (w.bits - 1) = true := by
    rw [getLsbD_sign_iff, ← rawSign_toNat]
    exact (BitVec.toNat_inj (y := 1#1)).symm
  have htop : 2 ^ (w.bits - 1) % 2 ^ w.bits = 2 ^ (w.bits - 1) := by cases w <;> rfl
  simp only [FloatValue.key, hsign, BitVec.toNat_xor, BitVec.toNat_allOnes, BitVec.toNat_twoPow, htop]

/-- Setting a bit that is 0 adds it. -/
theorem xor_two_pow_of_lt {n k : Nat} (h : n < 2 ^ k) : n ^^^ 2 ^ k = n + 2 ^ k := by
  have hhigh : (n ^^^ 2 ^ k) / 2 ^ k = 1 := by
    rw [Nat.xor_div_two_pow, Nat.div_eq_of_lt h, Nat.div_self (Nat.two_pow_pos k), Nat.zero_xor]
  have hlow : (n ^^^ 2 ^ k) % 2 ^ k = n := by
    rw [Nat.xor_mod_two_pow, Nat.mod_self, Nat.xor_zero, Nat.mod_eq_of_lt h]
  have hsplit := Nat.mod_add_div (n ^^^ 2 ^ k) (2 ^ k)
  rwa [hhigh, hlow, Nat.mul_one, eq_comm] at hsplit

/-- The key as a number. -/
theorem key_eq_orderKey (w : Width) (p : BitVec w.bits) : FloatValue.key ⟨w, p⟩ = orderKey w p.toNat := by
  have hsign := signOf_lt_two w p
  have hp := pattern_eq_sign_mag w p.toNat
  have hmag := magOf_lt w p.toNat
  rw [key_eq_xor, orderKey]
  by_cases hs : signOf w p.toNat = 1
  · rw [hs, Nat.one_mul] at hp
    rw [if_pos ((getLsbD_sign_iff w p).mpr hs), if_neg (by omega), ← BitVec.toNat_not, ← BitVec.xor_allOnes, BitVec.toNat_xor,
      BitVec.toNat_allOnes]
  · have hs0 : signOf w p.toNat = 0 := by omega
    rw [hs0, Nat.zero_mul, Nat.zero_add] at hp
    rw [if_neg (mt (getLsbD_sign_iff w p).mp hs), if_pos (by omega), xor_two_pow_of_lt (by omega)]

/-- Settles O41: both the key and the order are those of `orderKey`. -/
theorem orderIsComparisonOfKeys : Obligations.OrderIsComparisonOfKeys := by
  unfold Obligations.OrderIsComparisonOfKeys
  intro w p q
  rw [key_eq_orderKey w q, totalOrder_iff_orderKey, ← key_eq_orderKey w p]
  exact ⟨key_eq_xor w p, Iff.rfl⟩

/-! ### A total order -/

theorem orderKey_injective {w : Width} {p q : BitVec w.bits} (h : orderKey w p.toNat = orderKey w q.toNat) : p = q := by
  have hp := p.isLt
  have hq := q.isLt
  have hbits := two_pow_bits w
  apply BitVec.eq_of_toNat_eq
  unfold orderKey at h
  split at h <;> split at h <;> omega

/-- The key of the pattern with every bit 1 is 0. -/
theorem orderKey_allOnes (w : Width) : orderKey w (BitVec.ofNat w.bits (2 ^ w.bits - 1)).toNat = 0 := by
  cases w <;> rfl

/-- The key of the pattern with every bit but the sign 1 is the greatest W bits can hold. -/
theorem orderKey_allMagnitudeOnes (w : Width) :
    orderKey w (BitVec.ofNat w.bits (2 ^ (w.bits - 1) - 1)).toNat = 2 ^ w.bits - 1 := by
  cases w <;> rfl

theorem orderKey_lt (w : Width) (p : Nat) : orderKey w p < 2 ^ w.bits := by
  have hbits := two_pow_bits w
  have hpos := Nat.two_pow_pos (w.bits - 1)
  unfold orderKey
  split <;> omega

/-- Settles O42: keys are numbers, one for each pattern, from 0 to 2^W - 1. -/
theorem totalOrderIsATotalOrder : Obligations.TotalOrderIsATotalOrder := by
  unfold Obligations.TotalOrderIsATotalOrder
  intro w
  simp only [totalOrder_iff_orderKey]
  refine ⟨fun p => le_rfl, fun p q hpq hqp => orderKey_injective (le_antisymm hpq hqp), fun p q r => le_trans,
    fun p q => le_total _ _, fun p => ?_, fun p => ?_, fun p q hp hzp hq hzq hlt => ?_⟩
  · rw [orderKey_allOnes]
    exact Nat.zero_le _
  · rw [orderKey_allMagnitudeOnes]
    exact Nat.le_sub_one_of_lt (orderKey_lt w p.toNat)
  · rw [← ieeeValue_le_iff_orderKey fun hz => hzp hz.1, ← ieeeValue_le_iff_orderKey fun hz => hzq hz.1]
    exact ⟨hlt.le, hlt.not_ge⟩

/-! ### The comparator's commands (R230, R231) -/

theorem totalOrder_eq_decide {w : Width} (p q : BitVec w.bits) :
    totalOrder ⟨w, p⟩ ⟨w, q⟩ = decide (orderKey w p.toNat ≤ orderKey w q.toNat) := by
  rw [Bool.eq_iff_iff, totalOrder_iff_orderKey, decide_eq_true_iff]

/-- Settles O43: operands of one width are compared by key; of two widths there is no pair to compare. -/
theorem totalOrderResult : Obligations.TotalOrderResult := by
  unfold Obligations.TotalOrderResult
  refine fun w v s => ⟨?_, fun hne => exec_of_error (e := .typeMismatch) (i := .totalOrder w.formatCode v.formatCode) ?_⟩
  · rw [← setWidth_port_toNat, ← setWidth_port_toNat, ← totalOrder_eq_decide, ← boolOut_ofBool]
    refine exec_of_ok ?_
    rw [outcomeOf, outcomeTotalOrder, comparedOperands_same, ok_bind]
    rfl
  · rw [outcomeOf, outcomeTotalOrder, comparedOperands_differ hne, error_bind]

/-- Absolute values are positive, so they are compared by their magnitude bits. -/
theorem totalOrder_abs_eq_decide (w : Width) (p q : BitVec w.bits) :
    totalOrder (FloatValue.abs ⟨w, p⟩) (FloatValue.abs ⟨w, q⟩) = decide (magOf w p.toNat ≤ magOf w q.toNat) := by
  have hkey (r : Nat) : orderKey w (magOf w r) = magOf w r + 2 ^ (w.bits - 1) := if_pos (magOf_lt w r)
  rw [abs_eq, abs_eq, totalOrder_eq_decide, setSeqBit_sign_toNat, setSeqBit_sign_toNat, hkey, hkey]
  simp only [Nat.add_le_add_iff_right]

/-- Settles O44: as O43, for the absolute values of the operands. -/
theorem totalOrderMagResult : Obligations.TotalOrderMagResult := by
  unfold Obligations.TotalOrderMagResult
  refine fun w v s => ⟨?_, fun hne => exec_of_error (e := .typeMismatch) (i := .totalOrderMag w.formatCode v.formatCode) ?_⟩
  · simp only [← magOf_mod, ← setWidth_port_toNat]
    rw [← totalOrder_abs_eq_decide, ← boolOut_ofBool]
    refine exec_of_ok ?_
    rw [outcomeOf, outcomeTotalOrderMag, comparedOperands_same, ok_bind]
    rfl
  · rw [outcomeOf, outcomeTotalOrderMag, comparedOperands_differ hne, error_bind]

end Sys2Proof.Machine
end
